-- ==== Sys2Proof/Word.lean ====
section
/-! DEFINITION. Widths of the unit's words (spec 10_state.md R26, R28 to R31; 30_encoding.md R63). -/

namespace Sys2Proof

/-- A byte lane or a wire byte (R26, R31). -/
abbrev Byte := BitVec 8

/-- The command word CMD (R63). -/
abbrev CmdWord := BitVec 16

/-- A scalar operand or result: S0, S1, R_SCL (R26, R30). -/
abbrev Scalar := BitVec 32

/-- A codeword's value field (R25). -/
abbrev CodeVal := BitVec 64

/-- A codeword's length field: seven bits, of which 0..64 are lengths and 65..127 are not (R25). -/
abbrev CodeLen := BitVec 7

/-- Eight byte lanes, BIN[0..7] or BOUT[0..7] (R26, R31). -/
abbrev Lanes := Vector Byte 8

end Sys2Proof
end

