-- ==== Sys2Proof/Syntax.lean ====
section
/-! DEFINITION. The commands (spec 30_encoding.md R64) and their written form (R75, R76). -/

namespace Sys2Proof

/-- The ten commands of opcode_table.json. ENC's polarity is the only operand a command word carries (R63, R65):
every other operand arrives on a port (10_state.md R26). -/
inductive Instr where
  /-- ENC.LO (`hi = false`) and ENC.HI (`hi = true`), 41_encoder.md R92. -/
  | enc (hi : Bool)
  /-- CLEN, 42_scanner_decoder.md R101. -/
  | clen
  /-- DEC, 42_scanner_decoder.md R105. -/
  | dec
  /-- LEAD, 40_codeword.md R86. -/
  | lead
  /-- EQ, 40_codeword.md R84. -/
  | eq
  /-- CAT, 43_composition.md R111. -/
  | cat
  /-- SPLIT, 43_composition.md R116. -/
  | split
  /-- ALIGN, 43_composition.md R119. -/
  | align
  /-- WRITE, 44_serialization.md R124. -/
  | write
  /-- READ, 44_serialization.md R130. -/
  | read
deriving DecidableEq, Repr

/-- Why a command word is illegal (R66, R67). Each is the CONTRACT cause of the same name. -/
inductive Illegal where
  /-- OP is 0x0 or 0xB..0xF (R67). -/
  | badOpcode
  /-- OP is defined and a reserved bit is 1 (R66). -/
  | reservedBits
deriving DecidableEq, Repr

/-- The data ports a command may read (R26, R27). -/
inductive Port where
  | a | b | s0 | s1 | bin
deriving DecidableEq, Repr

/-- Where a codeword operand of a written command comes from: the literal `(val,len)` (R75), or by host shorthand
the result register R or Q, or a host variable (R76). -/
inductive CodewordSource where
  | literal (val : CodeVal) (len : CodeLen)
  | regR
  | regQ
  | var (name : String)
deriving DecidableEq, Repr

/-- Where a scalar operand comes from: a literal (R75) or a host variable (R76). -/
inductive ScalarSource where
  | literal (n : Scalar)
  | var (name : String)
deriving DecidableEq, Repr

/-- Where the bytes of BIN come from: the literal `[b0,b1,...]` (R75), result lanes `BOUT[i..j]`, or the bytes of a
host buffer from an offset, `%s[i..]` (R76). -/
inductive BytesSource where
  | literal (bytes : List Byte)
  | bout (i j : Nat)
  | var (name : String) (offset : Nat)
deriving DecidableEq, Repr

/-- One port assignment of a written command (R75). -/
inductive Assign where
  | a (c : CodewordSource)
  | b (c : CodewordSource)
  | s0 (n : ScalarSource)
  | s1 (n : ScalarSource)
  | bin (bytes : BytesSource)
deriving DecidableEq, Repr

/-- The port an assignment names. -/
def Assign.port : Assign → Port
  | .a _ => .a
  | .b _ => .b
  | .s0 _ => .s0
  | .s1 _ => .s1
  | .bin _ => .bin

/-- A written command: a mnemonic and its port assignments, in any order (R75). -/
structure AsmCommand where
  instr : Instr
  operands : List Assign
deriving DecidableEq, Repr

end Sys2Proof
end

