-- ==== Sys2Proof/WellFormed.lean ====
section
/-! DEFINITION. Which commands and written command lines are well-formed (spec 10_state.md R27, 30_encoding.md R69, R75). -/

namespace Sys2Proof

/-- The ports each command reads: the table of R27. -/
def Instr.portsRead : Instr → List Port
  | .enc _ => [.s0]
  | .clen => [.a, .s0]
  | .dec => [.a]
  | .lead => [.a]
  | .eq => [.a, .b]
  | .cat => [.a, .b]
  | .split => [.a]
  | .align => [.a]
  | .write => [.a, .s0]
  | .read => [.bin, .s0, .s1]

/-- Every term of `Instr` is a legal command: the one operand field of a word is HI, and ENC admits both its
values (R65, R69). -/
def Instr.wf : Instr → Bool
  | .enc _ | .clen | .dec | .lead | .eq | .cat | .split | .align | .write | .read => true

/-- "A port the command does not read may not be written" (R75). -/
def AsmCommand.portsAllowed (c : AsmCommand) : Bool :=
  c.operands.all fun o => c.instr.portsRead.contains o.port

/-- No port is assigned twice. R75 does not say what a second assignment would mean (log 11). -/
def AsmCommand.portsDistinct (c : AsmCommand) : Bool :=
  decide (c.operands.map Assign.port).Nodup

/-- `[i..j]` names result lanes: i ≤ j ≤ 7, since BOUT has lanes 0..7 (10_state.md R31). R76 does not say what another
range would mean (log 11). -/
def lanesNamed (i j : Nat) : Bool := decide (i ≤ j ∧ j ≤ 7)

/-- A byte list fills the lanes BIN[0..7] and no more; a range of result lanes names lanes (R75, R76, log 11). -/
def Assign.lanesFit : Assign → Bool
  | .bin (.literal bytes) => decide (bytes.length ≤ 8)
  | .bin (.bout i j) => lanesNamed i j
  | .bin (.var _ _) | .a _ | .b _ | .s0 _ | .s1 _ => true

/-- A written command is well-formed. -/
def AsmCommand.wf (c : AsmCommand) : Bool :=
  c.instr.wf && c.portsAllowed && c.portsDistinct && c.operands.all Assign.lanesFit

end Sys2Proof
end

