-- ==== Sys2Proof/Decode.lean ====
section
/-! DEFINITION. The command word: decoder (spec 30_encoding.md R63 to R68) and encoder (R63, R64, R69). -/

namespace Sys2Proof

/-- OP = CMD[3:0] (R63). -/
def opField (cmd : CmdWord) : BitVec 4 := cmd.extractLsb' 0 4

/-- HI = CMD[4] (R63, R65). -/
def hiField (cmd : CmdWord) : Bool := cmd.getLsbD 4

/-- RSV = CMD[15:5] (R63). -/
def rsvField (cmd : CmdWord) : BitVec 11 := cmd.extractLsb' 5 11

/-- The opcode map of R64: none for the undefined 0x0 and 0xB..0xF. `hi` is used by ENC alone. -/
def instrOfOpcode (op : BitVec 4) (hi : Bool) : Option Instr :=
  match op.toNat with
  | 0x1 => some (.enc hi)
  | 0x2 => some .clen
  | 0x3 => some .dec
  | 0x4 => some .lead
  | 0x5 => some .eq
  | 0x6 => some .cat
  | 0x7 => some .split
  | 0x8 => some .align
  | 0x9 => some .write
  | 0xA => some .read
  | _ => none

/-- Command decode, total over all 65536 words, its checks in the order of R68. -/
def decode (cmd : CmdWord) : Except Illegal Instr :=
  match instrOfOpcode (opField cmd) (hiField cmd) with
  | none => .error .badOpcode
  | some i =>
    if rsvField cmd ≠ 0 then .error .reservedBits
    else if opField cmd ≠ 0x1 ∧ hiField cmd = true then .error .reservedBits
    else .ok i

/-- The opcode of each command (R64). -/
def opcodeOf : Instr → BitVec 4
  | .enc _ => 0x1
  | .clen => 0x2
  | .dec => 0x3
  | .lead => 0x4
  | .eq => 0x5
  | .cat => 0x6
  | .split => 0x7
  | .align => 0x8
  | .write => 0x9
  | .read => 0xA

/-- The HI bit of each command's word: ENC's polarity, 0 for every other (R65). -/
def hiOf : Instr → Bool
  | .enc hi => hi
  | .clen | .dec | .lead | .eq | .cat | .split | .align | .write | .read => false

/-- The word of a command: RSV = 0, HI, OP from the highest bits down (R63). -/
def encode (i : Instr) : CmdWord :=
  0#11 ++ BitVec.ofBool (hiOf i) ++ opcodeOf i

/-- A table word as the unit sees it on CMD. The word is 16 bits wide, so bits from `nbits` up to 15 are 0. -/
def cmdOfTableWord (nbits w : Nat) : CmdWord := BitVec.ofNat 16 (w % 2 ^ nbits)

/-- The instruction this decoder reads from a word of opcode_table.json. A command word is presented whole on
CMD[15:0] (R63), so there is no byte order to choose. -/
def decodeTableWord (nbits w : Nat) : Option Instr :=
  match decode (cmdOfTableWord nbits w) with
  | .ok i => some i
  | .error _ => none

end Sys2Proof
end

