-- ==== Sys2Proof/Config.lean ====
section
/-! DEFINITION. The implementation parameters W and K (spec 00_scope.md R7 to R9, log 14).
LAT is a field of State (`State.extraCycles`, log 2), and so is the choice of ENC_LIMIT (`State.encLimit`, log 8), whose
two values this file names.
FASTPATH_N has no visible effect and no definition (log 9). No result of any command is left open by the spec,
so no opaque free value is declared. -/

namespace Sys2Proof.Config

/-- W, the codeword capacity in bits (R7). -/
abbrev W : Nat := 64

/-- K, the largest prefix width (R8). -/
abbrev K : Nat := 31

/-- The two constraints R9 puts on W and K: alignment never exceeds W, and every code fits. -/
abbrev ParametersConsistent : Prop := W % 8 = 0 ∧ 2 * K + 1 ≤ W

/-- The two values of the open parameter ENC_LIMIT (00_scope.md R11, 92_eei_decisions.md open parameters). -/
inductive EncLimit where
  /-- CCT[K], this spec's value (90_conflicts.md C1). -/
  | cctK
  /-- CCT[K] - 1, the literal `<` of the source's section 4.1. -/
  | cctKMinusOne
deriving DecidableEq, Repr

end Sys2Proof.Config
end

