-- ==== Sys2Proof/Machine/State.lean ====
section
/-! DEFINITION. The unit's state as plain data (spec 10_state.md), the outcomes a command can complete with (R34, R35),
the machine's two stop types, and the state after reset (R42). -/

namespace Sys2Proof.Machine

/-- A codeword field pair (val, len), as the operand ports and the registers R and Q carry it (R25, R28, R29).
A length above 64 can stand on a port and is then no codeword (R25, 40_codeword.md R81). -/
structure Codeword where
  val : CodeVal
  len : CodeLen
deriving DecidableEq, Repr

/-- (0, 0). -/
def Codeword.zero : Codeword := ⟨0, 0⟩

/-- Eight lanes of zero bytes. -/
def zeroLanes : Lanes := #v[0, 0, 0, 0, 0, 0, 0, 0]

/-- CMD and the data ports, as they are sampled together when a command is accepted (R26, R41). -/
structure Command where
  /-- CMD, 16 bits. -/
  cmd : CmdWord
  /-- (A_VAL, A_LEN). -/
  a : Codeword
  /-- (B_VAL, B_LEN). -/
  b : Codeword
  /-- S0, 32 bits. -/
  s0 : Scalar
  /-- S1, 32 bits. -/
  s1 : Scalar
  /-- BIN[0..7]; lane i is byte i of the source stream. -/
  bin : Lanes
deriving DecidableEq, Repr

/-- All ports zero. It is also what the empty latch holds (log 6). -/
def Command.empty : Command := ⟨0, Codeword.zero, Codeword.zero, 0, 0, zeroLanes⟩

/-- The levels the host drives at the next rising edge of CLK (R26). CLK itself has no field: a step is a rising
edge (log 1). -/
structure Ports where
  command : Command
  /-- CMD_VALID. -/
  cmdValid : Bool
  /-- RST, active high. -/
  rst : Bool
deriving DecidableEq, Repr

/-- The causes of a contract violation (R35). -/
inductive ContractCause where
  | badOpcode
  | reservedBits
  | badLength
  | encRange
  | badWindow
  | notACode
  | emptyCodeword
  | catOverflow
deriving DecidableEq, Repr

/-- The causes of a malformed-input completion (R35). -/
inductive MalformedCause where
  | noMarker
  | overrun
  | emptySource
  | zeroCount
deriving DecidableEq, Repr

/-- What a command hands to the result registers (R28 to R31). -/
structure Results where
  r : Codeword
  q : Codeword
  rScl : Scalar
  bout : Lanes
deriving DecidableEq, Repr

/-- Every result register zero (R39). -/
def Results.zero : Results := ⟨Codeword.zero, Codeword.zero, 0, zeroLanes⟩

/-- The one outcome a command completes with (60_exceptions.md R137). -/
inductive Completion where
  /-- CODE = OK (R139), with the values the command produces and zero for the rest (R39). -/
  | ok (res : Results)
  /-- CODE = MALFORMED (R142). -/
  | malformed (cause : MalformedCause)
  /-- CODE = NOSPACE (R140). -/
  | nospace
  /-- CODE = CONTRACT (R141). -/
  | contract (cause : ContractCause)
  /-- CODE = REJECTED (R143). -/
  | rejected
deriving DecidableEq, Repr

/-- The machine's state: the unit's registers (R20), the levels on its input ports (R26), and the model's two
timing fields. CCT and REV are constants of Machine/Roms.lean (70_reset_and_hazards.md R164). -/
structure State where
  /-- R = (R_VAL, R_LEN), the primary result codeword (R28). -/
  r : Codeword
  /-- Q = (Q_VAL, Q_LEN), the secondary result codeword (R29). -/
  q : Codeword
  /-- R_SCL, the scalar result (R30). -/
  rScl : Scalar
  /-- BOUT[0..7] (R31). -/
  bout : Lanes
  /-- STATUS, all 32 bits (R33); its fields are read and written by Machine/Flags.lean. -/
  status : BitVec 32
  /-- The accepted-command latch (R41). It holds a command exactly while STATUS.BUSY = 1. -/
  latch : Command
  /-- The input ports as the host drives them. -/
  ports : Ports
  /-- MODEL's own field: the edges still to pass before the completion edge of the command in flight
  (70_reset_and_hazards.md R168, log 3). -/
  wait : Nat
  /-- MODEL's own field: LAT - 1 of each coming command, the parameter LAT of 00_scope.md R12 taken as an argument
  (log 2). Past the end of the list LAT is 1. -/
  extraCycles : List Nat
  /-- MODEL's own field: the value of the parameter ENC_LIMIT (00_scope.md R11) this unit is built with, taken as an
  argument (log 8). No edge changes it. -/
  encLimit : Config.EncLimit
deriving DecidableEq, Repr

/-- Reasons to stop with a fault: none. Every error of the spec is a completion with a STATUS, after which the unit
is still there (60_exceptions.md R137, R148), so every step answers a next state. -/
inductive Fault where
deriving DecidableEq, Repr

/-- Reasons to refuse an instruction. -/
inductive Refusal where
  /-- Raised by an arm of `exec` whose instruction has no meaning yet. It is safe: the machine stops. No arm raises it. -/
  | notModelled (mnemonic : String)
deriving DecidableEq, Repr

/-- The unit right after reset (R42), with the ports idle (log 4), no latency listed (log 2) and ENC_LIMIT = CCT[K] as
90_conflicts.md C1 says (log 8). -/
def State.reset : State where
  r := Codeword.zero
  q := Codeword.zero
  rScl := 0
  bout := zeroLanes
  status := 0
  latch := Command.empty
  ports := ⟨Command.empty, false, false⟩
  wait := 0
  extraCycles := []
  encLimit := .cctK

end Sys2Proof.Machine
end

