-- ==== Sys2Proof/Machine/Flags.lean ====
section
/-! DEFINITION. STATUS: its layout (spec 10_state.md R33), the numbers of CODE and CAUSE (R34, R35), and what each
event writes into it (R36 to R38, 60_exceptions.md R138 to R143). -/

namespace Sys2Proof.Machine

/-- CODE = STATUS[2:0]. -/
def statusCode (w : BitVec 32) : BitVec 3 := w.extractLsb' 0 3

/-- CAUSE = STATUS[7:4]. -/
def statusCause (w : BitVec 32) : BitVec 4 := w.extractLsb' 4 4

/-- FAULT = STATUS[8]. -/
def statusFault (w : BitVec 32) : Bool := w.getLsbD 8

/-- BUSY = STATUS[9]. -/
def statusBusy (w : BitVec 32) : Bool := w.getLsbD 9

/-- FCAUSE = STATUS[15:12]. -/
def statusFcause (w : BitVec 32) : BitVec 4 := w.extractLsb' 12 4

/-- STATUS from its fields, the reserved bits 0 (R33). -/
def packStatus (code : BitVec 3) (cause : BitVec 4) (fault busy : Bool) (fcause : BitVec 4) : BitVec 32 :=
  0#16 ++ fcause ++ 0#2 ++ BitVec.ofBool busy ++ BitVec.ofBool fault ++ cause ++ 0#1 ++ code

/-- The reserved bits 3, 11:10 and 31:16 read 0 (R33). -/
def statusReservedZero (w : BitVec 32) : Bool :=
  w.getLsbD 3 == false && w.extractLsb' 10 2 == 0 && w.extractLsb' 16 16 == 0

/-- The CAUSE number of a contract violation (R35). -/
def contractCauseBits : ContractCause → BitVec 4
  | .badOpcode => 1
  | .reservedBits => 2
  | .badLength => 3
  | .encRange => 4
  | .badWindow => 5
  | .notACode => 6
  | .emptyCodeword => 7
  | .catOverflow => 8

/-- The CAUSE number of a malformed-input completion (R35). -/
def malformedCauseBits : MalformedCause → BitVec 4
  | .noMarker => 1
  | .overrun => 2
  | .emptySource => 3
  | .zeroCount => 4

/-- The CODE number of a completion (R34). -/
def completionCode : Completion → BitVec 3
  | .ok _ => 0
  | .malformed _ => 1
  | .nospace => 2
  | .contract _ => 3
  | .rejected => 4

/-- The CAUSE number of a completion: 0 under OK, NOSPACE and REJECTED (R35). -/
def completionCause : Completion → BitVec 4
  | .ok _ | .nospace | .rejected => 0
  | .malformed c => malformedCauseBits c
  | .contract c => contractCauseBits c

/-- FAULT after a completion: a contract violation sets it, nothing else changes it (R36, R141). -/
def faultAfter (w : BitVec 32) : Completion → Bool
  | .contract _ => true
  | .ok _ | .malformed _ | .nospace | .rejected => statusFault w

/-- FCAUSE after a completion: a contract violation writes its cause, nothing else changes it (R36, R141). -/
def fcauseAfter (w : BitVec 32) : Completion → BitVec 4
  | .contract c => contractCauseBits c
  | .ok _ | .malformed _ | .nospace | .rejected => statusFcause w

/-- STATUS at the completion edge: CODE and CAUSE are written, BUSY is cleared, FAULT and FCAUSE follow R141
(60_exceptions.md R138). -/
def statusAfter (w : BitVec 32) (c : Completion) : BitVec 32 :=
  packStatus (completionCode c) (completionCause c) (faultAfter w c) false (fcauseAfter w c)

/-- STATUS at the acceptance edge: BUSY <- 1, every other field as it was (R37, R40). -/
def statusAccepted (w : BitVec 32) : BitVec 32 :=
  packStatus (statusCode w) (statusCause w) (statusFault w) true (statusFcause w)

end Sys2Proof.Machine
end

