-- ==== Sys2Proof/Machine/Bits.lean ====
section
/-! DEFINITION. The primitive functions of spec 00_scope.md R15, total at n = 64. -/

namespace Sys2Proof.Machine

/-- mask(n) = 2^n - 1, as a 64-bit value (R15). -/
def mask (n : Nat) : CodeVal := BitVec.ofNat 64 (2 ^ n - 1)

/-- shl(v, n) = (v * 2^n) mod 2^64 (R15). -/
def shl (v : CodeVal) (n : Nat) : CodeVal := v <<< n

/-- shr(v, n) = floor(v / 2^n) (R15). -/
def shr (v : CodeVal) (n : Nat) : CodeVal := v >>> n

/-- ceil8(n) = floor((n + 7) / 8) (R15). -/
def ceil8 (n : Nat) : Nat := (n + 7) / 8

end Sys2Proof.Machine
end

