-- ==== Sys2Proof/Machine/Operands.lean ====
section
/-! DEFINITION. Operand forms (spec 30_encoding.md R70): codewords with their length check and canonical form
(40_codeword.md R81, R82), scalars, and the byte lanes READ sees. -/

namespace Sys2Proof.Machine

/-- A codeword from a value and a length computed as a number. -/
def Codeword.ofLen (val : CodeVal) (n : Nat) : Codeword := ⟨val, BitVec.ofNat 7 n⟩

/-- The length as a number, 0..127. -/
def Codeword.length (c : Codeword) : Nat := c.len.toNat

/-- Does the length field hold a length, 0..64 (R25, R81)? -/
def lengthOk (c : Codeword) : Bool := decide (c.length ≤ Config.W)

/-- canon(c): the value bits at positions at or above the length are cleared (R82). -/
def canon (c : Codeword) : Codeword := ⟨c.val &&& mask c.length, c.len⟩

/-- A command that reads codeword A alone: BAD_LENGTH if A_LEN > 64, else it computes from canon(A) (R81, R82). -/
def withA (l : Command) (body : Codeword → Completion) : Completion :=
  if lengthOk l.a then body (canon l.a) else .contract .badLength

/-- A command that reads codewords A and B: A is checked before B (R81). -/
def withAB (l : Command) (body : Codeword → Codeword → Completion) : Completion :=
  if lengthOk l.a then
    if lengthOk l.b then body (canon l.a) (canon l.b) else .contract .badLength
  else .contract .badLength

/-- S0 as an unsigned number (R70). -/
abbrev s0Nat (l : Command) : Nat := l.s0.toNat

/-- S1 as an unsigned number (R70). -/
abbrev s1Nat (l : Command) : Nat := l.s1.toNat

/-- n = min(S0, 8), the byte lanes READ sees (R70). -/
def lanesRead (l : Command) : Nat := min (s0Nat l) 8

/-- An OK completion whose only result is the codeword R. -/
def okR (c : Codeword) : Completion := .ok { Results.zero with r := c }

/-- An OK completion whose results are R and Q. -/
def okRQ (c d : Codeword) : Completion := .ok { Results.zero with r := c, q := d }

/-- An OK completion whose only result is the scalar R_SCL. -/
def okScalar (n : Nat) : Completion := .ok { Results.zero with rScl := BitVec.ofNat 32 n }

end Sys2Proof.Machine
end

