-- ==== Sys2Proof/Machine/Ops.lean ====
section
/-! DEFINITION. The named operations on the state: accepting a command, completing it with or without an error,
and reset (spec 70_reset_and_hazards.md, 60_exceptions.md R138 to R143). The unit has no memory to operate on
(20_memory.md R46). -/

namespace Sys2Proof.Machine

/-- The values a completion writes to the result registers: the command's own if CODE = OK, all zero otherwise (R39). -/
def resultsOf : Completion → Results
  | .ok res => res
  | .malformed _ | .nospace | .contract _ | .rejected => Results.zero

/-- complete(code, cause), the one operation that ends a command (60_exceptions.md R138): every result register and
STATUS are written together, BUSY is cleared, and the latch is empty again (log 6). Taking an error is this operation
with a non-OK completion; there is no trap entry (R148). -/
def complete (s : State) (c : Completion) : State :=
  { s with
    r := (resultsOf c).r
    q := (resultsOf c).q
    rScl := (resultsOf c).rScl
    bout := (resultsOf c).bout
    status := statusAfter s.status c
    latch := Command.empty
    wait := 0 }

/-- raise CONTRACT(cause) (R141). -/
def raiseContract (s : State) (cause : ContractCause) : State := complete s (.contract cause)

/-- The completion of a command accepted while FAULT = 1 (R143). -/
def reject (s : State) : State := complete s .rejected

/-- The cause of an illegal command word (30_encoding.md R66, R67). -/
def illegalCause : Illegal → ContractCause
  | .badOpcode => .badOpcode
  | .reservedBits => .reservedBits

/-- The completion of an illegal command word, which executes nothing. -/
def rejectIllegal (s : State) (e : Illegal) : State := raiseContract s (illegalCause e)

/-- The acceptance edge (R167): the ports are copied to the latch and BUSY <- 1. The command's latency is taken from
the head of `extraCycles` (R168, log 2). -/
def accept (s : State) : State :=
  { s with
    latch := s.ports.command
    status := statusAccepted s.status
    wait := s.extraCycles.headD 0
    extraCycles := s.extraCycles.tail }

/-- An edge on which the command in flight has `n` edges to go after this one (R168, R169). -/
def waitEdge (s : State) (n : Nat) : State := { s with wait := n }

/-- A rising edge with RST = 1 (R161, R162): every register at its reset value, a command in flight abandoned (R163).
It is also the only return from a contract violation (60_exceptions.md R149). The ports, the coming latencies and
the parameter ENC_LIMIT are not state that reset sets, and stay (log 2, 4, 8). -/
def resetUnit (s : State) : State :=
  { State.reset with ports := s.ports, extraCycles := s.extraCycles, encLimit := s.encLimit }

/-- CMD_READY = not BUSY (R37, R43). -/
def cmdReady (s : State) : Bool := !statusBusy s.status

/-- The output ports (R43). -/
structure Outputs where
  rVal : CodeVal
  rLen : CodeLen
  qVal : CodeVal
  qLen : CodeLen
  rScl : Scalar
  bout : Lanes
  status : BitVec 32
  cmdReady : Bool
deriving DecidableEq, Repr

/-- What the host reads at any time; reading changes nothing (R40, R43, 20_memory.md R57). -/
def outputs (s : State) : Outputs :=
  ⟨s.r.val, s.r.len, s.q.val, s.q.len, s.rScl, s.bout, s.status, cmdReady s⟩

/-- A state whose latch holds command `c`, in flight and due to complete at the next edge. -/
def placeInFlight (s : State) (c : Command) : State :=
  { s with
    latch := c
    status := statusAccepted s.status
    wait := 0
    ports := { s.ports with rst := false } }

end Sys2Proof.Machine
end

