-- ==== Sys2Proof/Machine/Buffer.lean ====
section
/-! DEFINITION. The codeword-buffer predicates EQ and LEAD (spec 40_codeword.md R83 to R86). -/

namespace Sys2Proof.Machine

/-- equal(a, b) on the canonical forms (R83). -/
def equalCodewords (a b : Codeword) : Bool := decide (a.len = b.len ∧ a.val = b.val)

/-- What EQ answers for the latched operands (R84). -/
def eqResult (l : Command) : Completion :=
  withAB l fun a b => okScalar (if equalCodewords a b then 1 else 0)

/-- EQ: codeword equality (R84). -/
def execEq (s : State) : Host.Outcome State Fault Refusal := .next (complete s (eqResult s.latch))

/-- lead(c) = c.val[c.len - 1] of a canonical codeword with c.len ≥ 1 (R85). -/
def leadBit (c : Codeword) : Bool := c.val.getLsbD (c.length - 1)

/-- What LEAD answers for the latched operand (R86). -/
def leadResult (l : Command) : Completion :=
  withA l fun c =>
    if c.length = 0 then .contract .emptyCodeword
    else okScalar (if leadBit c then 1 else 0)

/-- LEAD: leading-bit predicate (R86). -/
def execLead (s : State) : Host.Outcome State Fault Refusal := .next (complete s (leadResult s.latch))

end Sys2Proof.Machine
end

