-- ==== Sys2Proof/Machine/Scanner.lean ====
section
/-! DEFINITION. The length scanner and the decoder: CLEN, DEC (spec 42_scanner_decoder.md). -/

namespace Sys2Proof.Machine

/-- The loop of scan (R97): with run length r so far and bits below position n still to look at, the code length
once a bit differs from p, or 0 when the window is exhausted. -/
def scanRun (v : CodeVal) (p : Bool) : (r n : Nat) → Nat
  | _, 0 => 0
  | r, i + 1 => if v.getLsbD i = p then scanRun v p (r + 1) i else 2 * r + 1

/-- scan(v, w): the length of the code whose first bit is bit w-1 of v, or 0 if the window of w bits holds no
marker (R97). -/
def scan (v : CodeVal) : (w : Nat) → Nat
  | 0 => 0
  | n + 1 => scanRun v (v.getLsbD n) 1 n

/-- What CLEN answers for the latched operands (R101). -/
def clenResult (l : Command) : Completion :=
  withA l fun c =>
    if s0Nat l > 64 then .contract .badWindow
    else if scan c.val (s0Nat l) = 0 then .malformed .noMarker
    else okScalar (scan c.val (s0Nat l))

/-- CLEN: codeword-length scan (R101). -/
def execClen (s : State) : Host.Outcome State Fault Refusal := .next (complete s (clenResult s.latch))

/-- is_code(c): c is one complete code, all three clauses as the source states them (R103). -/
def isCode (c : Codeword) : Bool :=
  decide (c.length % 2 = 1 ∧ c.length > 2 ∧ scan c.val c.length = c.length)

/-- dec(c) = CCT[k-1] + (low k bits of c.val), with k = (c.len - 1) / 2 (R104). -/
def dec (c : Codeword) : Nat :=
  let k := (c.length - 1) / 2
  cct (k - 1) + (c.val &&& mask k).toNat

/-- What DEC answers for the latched operand (R105). -/
def decResult (l : Command) : Completion :=
  withA l fun c => if isCode c then okScalar (dec c) else .contract .notACode

/-- DEC: decode one code (R105). -/
def execDec (s : State) : Host.Outcome State Fault Refusal := .next (complete s (decResult s.latch))

end Sys2Proof.Machine
end

