-- ==== Sys2Proof/Machine/Composition.lean ====
section
/-! DEFINITION. Buffer composition: CAT, SPLIT, ALIGN (spec 43_composition.md). -/

namespace Sys2Proof.Machine

/-- concat(a, b): a's bits followed by b's in stream order, for canonical a and b that fit (R109). -/
def concat (a b : Codeword) : Codeword :=
  Codeword.ofLen (shl a.val b.length ||| b.val) (a.length + b.length)

/-- What CAT answers for the latched operands (R110, R111). -/
def catResult (l : Command) : Completion :=
  withAB l fun a b =>
    if a.length + b.length > 64 then .contract .catOverflow else okR (concat a b)

/-- CAT: concatenate two codewords (R111). -/
def execCat (s : State) : Host.Outcome State Fault Refusal := .next (complete s (catResult s.latch))

/-- The leftmost code of a buffer and what remains, for a code length that fits in the buffer (R113). -/
def splitAt (c : Codeword) (clen : Nat) : Codeword × Codeword :=
  let rest := c.length - clen
  (Codeword.ofLen (shr c.val rest) clen, Codeword.ofLen (c.val &&& mask rest) rest)

/-- What SPLIT answers for the latched buffer (R114 to R116). -/
def splitResult (l : Command) : Completion :=
  withA l fun c =>
    let clen := scan c.val c.length
    if clen = 0 then .malformed .noMarker
    else if clen > c.length then .malformed .overrun
    else okRQ (splitAt c clen).1 (splitAt c clen).2

/-- SPLIT: extract the leftmost code (R116). -/
def execSplit (s : State) : Host.Outcome State Fault Refusal := .next (complete s (splitResult s.latch))

/-- pad(c), the zero bits that bring a length to a multiple of 8 (R118). -/
def padOf (n : Nat) : Nat := (8 - n % 8) % 8

/-- align(c) (R118). -/
def align (c : Codeword) : Codeword :=
  Codeword.ofLen (shl c.val (padOf c.length)) (c.length + padOf c.length)

/-- What ALIGN answers for the latched operand (R119). -/
def alignResult (l : Command) : Completion := withA l fun c => okR (align c)

/-- ALIGN: byte-align a codeword (R119). -/
def execAlign (s : State) : Host.Outcome State Fault Refusal := .next (complete s (alignResult s.latch))

end Sys2Proof.Machine
end

