-- ==== Sys2Proof/Machine/Encoder.lean ====
section
/-! DEFINITION. The encoder: ENC (spec 41_encoder.md R90 to R92, R95). -/

namespace Sys2Proof.Machine

/-- ENC_LIMIT, the exclusive bound on encodable values (00_scope.md R11, R90): CCT[K], or under the other reading of
conflict C1 CCT[K] - 1 (log 8). -/
def encLimitValue : Config.EncLimit → Nat
  | .cctK => cct Config.K
  | .cctKMinusOne => cct Config.K - 1

/-- The least k in `from ..` with CCT[k] > v, looking at `fuel` entries; 0 if there is none (R91). -/
def leastWidthFrom (v : Nat) : (start fuel : Nat) → Nat
  | _, 0 => 0
  | k, fuel + 1 => if v < cct k then k else leastWidthFrom v (k + 1) fuel

/-- k, the least prefix width in 1..K with CCT[k] > v (R91). -/
def prefixWidth (v : Nat) : Nat := leastWidthFrom v 1 Config.K

/-- enc(v, hi) (R91): k prefix bits equal to hi, the marker ¬hi, and the k-bit offset v - CCT[k-1]. A fast-path
lookup must give the same codeword, so there is none here (R95, log 9). -/
def enc (v : Nat) (hi : Bool) : Codeword :=
  let k := prefixWidth v
  let offset := v - cct (k - 1)
  let prefixBits := if hi then mask k else 0
  let marker : CodeVal := if hi then 0 else 1
  Codeword.ofLen (shl prefixBits (k + 1) ||| shl marker k ||| BitVec.ofNat 64 offset) (2 * k + 1)

/-- What ENC answers for the latched value, by a unit built with the given ENC_LIMIT (R92). -/
def encResult (limit : Config.EncLimit) (hi : Bool) (l : Command) : Completion :=
  if s0Nat l ≥ encLimitValue limit then .contract .encRange else okR (enc (s0Nat l) hi)

/-- ENC.LO and ENC.HI: encode a value (R92). -/
def execEnc (hi : Bool) (s : State) : Host.Outcome State Fault Refusal :=
  .next (complete s (encResult s.encLimit hi s.latch))

end Sys2Proof.Machine
end

