-- ==== Sys2Proof/Machine/Serialization.lean ====
section
/-! DEFINITION. Byte serialization: WRITE, READ (spec 44_serialization.md; bit and byte order 20_memory.md R49 to R51). -/

namespace Sys2Proof.Machine

/-- n, the bytes serialize emits: the aligned length in bytes (R122). -/
def byteCount (c : Codeword) : Nat := (align c).length / 8

/-- byte[i] of serialize(c): the i-th byte of the aligned value, most significant first, bit-reversed (R122). -/
def wireByte (c : Codeword) (i : Nat) : Byte :=
  rev ((shr (align c).val ((align c).length - 8 * (i + 1))).extractLsb' 0 8)

/-- BOUT[i]: the emitted bytes in lane order, every further lane 0 (R124, 20_memory.md R51). -/
def wireLane (c : Codeword) (i : Nat) : Byte := if i < byteCount c then wireByte c i else 0

/-- The eight lanes WRITE drives. -/
def wireLanes (c : Codeword) : Lanes :=
  #v[wireLane c 0, wireLane c 1, wireLane c 2, wireLane c 3, wireLane c 4, wireLane c 5, wireLane c 6, wireLane c 7]

/-- What WRITE answers for the latched operands (R123, R124). -/
def writeResult (l : Command) : Completion :=
  withA l fun c =>
    if byteCount c > s0Nat l then .nospace
    else .ok { Results.zero with bout := wireLanes c, rScl := BitVec.ofNat 32 (byteCount c) }

/-- WRITE: serialize a codeword to bytes (R124). -/
def execWrite (s : State) : Host.Outcome State Fault Refusal := .next (complete s (writeResult s.latch))

/-- acc after the bytes of `bytes`, first byte highest, each bit-reversed (R126). -/
def accumulate (bytes : List Byte) : CodeVal :=
  bytes.foldl (fun acc b => shl acc 8 ||| (rev b).setWidth 64) 0

/-- The bytes READ takes from BIN, lanes 0..n-1 in order (R126). -/
def sourceBytes (l : Command) : List Byte := l.bin.toList.take (lanesRead l)

/-- The code-count loop of READ: `m` more codes from the low `total - used` bits of acc; the number of bits used,
or the cause of the first failure (R127). -/
def locateCodes (acc : CodeVal) (total : Nat) : (m used : Nat) → Except MalformedCause Nat
  | 0, used => .ok used
  | m + 1, used =>
    let w := total - used
    let clen := scan acc w
    if clen = 0 then .error .noMarker
    else if clen > w then .error .overrun
    else locateCodes acc total m (used + clen)

/-- What READ answers for the latched operands (R128 to R130). -/
def readResult (l : Command) : Completion :=
  if s0Nat l = 0 then .malformed .emptySource
  else if s1Nat l = 0 then .malformed .zeroCount
  else
    let acc := accumulate (sourceBytes l)
    let total := 8 * lanesRead l
    match locateCodes acc total (s1Nat l) 0 with
    | .error cause => .malformed cause
    | .ok used =>
      .ok { Results.zero with
        r := Codeword.ofLen (shr acc (total - used)) used
        rScl := BitVec.ofNat 32 (ceil8 used) }

/-- READ: deserialize exactly nrCodes codes (R130). -/
def execRead (s : State) : Host.Outcome State Fault Refusal := .next (complete s (readResult s.latch))

end Sys2Proof.Machine
end

