-- ==== Sys2Proof/Machine/Dispatch.lean ====
section
/-! DEFINITION. exec: one arm per command, each one call of the command's own meaning (spec 30_encoding.md R64, R68).
It is the completion of the command in the latch; the case FAULT = 1 is decided before it (60_exceptions.md R143, log 10). -/

namespace Sys2Proof.Machine

def exec (i : Instr) (s : State) : Host.Outcome State Fault Refusal :=
  match i with
  | .enc hi => Sys2Proof.Machine.execEnc hi s
  | .clen => Sys2Proof.Machine.execClen s
  | .dec => Sys2Proof.Machine.execDec s
  | .lead => Sys2Proof.Machine.execLead s
  | .eq => Sys2Proof.Machine.execEq s
  | .cat => Sys2Proof.Machine.execCat s
  | .split => Sys2Proof.Machine.execSplit s
  | .align => Sys2Proof.Machine.execAlign s
  | .write => Sys2Proof.Machine.execWrite s
  | .read => Sys2Proof.Machine.execRead s

end Sys2Proof.Machine
end

