-- ==== Sys2Proof/Machine/Clock.lean ====
section
/-! DEFINITION. One rising edge of CLK (spec 70_reset_and_hazards.md R161 to R169) and the placing of a command in
flight. -/

namespace Sys2Proof.Machine

/-- The completion edge of the command in the latch: REJECTED before decode if FAULT = 1 (60_exceptions.md R143, R146),
else CONTRACT for an illegal word (30_encoding.md R68), else the command itself. -/
def completionEdge (s : State) : Host.Outcome State Fault Refusal :=
  if statusFault s.status then .next (reject s)
  else
    match decode s.latch.cmd with
    | .ok i => exec i s
    | .error e => .next (rejectIllegal s e)

/-- One rising edge: reset first (R161), then the command in flight (R168, R169), then acceptance (R167); an edge
with none of them changes nothing (R158). -/
def clockEdge (s : State) : Host.Outcome State Fault Refusal :=
  if s.ports.rst then .next (resetUnit s)
  else if statusBusy s.status then
    match s.wait with
    | n + 1 => .next (waitEdge s n)
    | 0 => completionEdge s
  else if s.ports.cmdValid then .next (accept s)
  else .next s

/-- `s` with a command word in flight, its operands the data ports as they stand, due to complete at the next edge:
the state an acceptance edge with LAT = 1 would have left (log 5). -/
def withCommandInFlight (s : State) (cmd : CmdWord) : State :=
  placeInFlight s { s.ports.command with cmd := cmd }

/-- `n` successive rising edges with the ports held as they are. -/
def clockEdges : Nat → State → Host.Outcome State Fault Refusal
  | 0, s => .next s
  | n + 1, s =>
    match clockEdge s with
    | .next t => clockEdges n t
    | .fault f => .fault f
    | .refused r => .refused r

end Sys2Proof.Machine
end

