-- ==== Sys2Proof/Machine/Step.lean ====
section
/-! DEFINITION. The step of the machine: one rising edge of CLK (log 1). -/

namespace Sys2Proof.Machine

/-- One step. It always answers a next state (60_exceptions.md R137). -/
def step (s : State) : Host.Outcome State Fault Refusal := clockEdge s

/-- `s` with the table word `w` as the command in flight, so that the next step completes it. The unit fetches
nothing (20_memory.md R62): the word stands where an accepted command stands, in the latch (log 5). -/
def State.withFetchWord (s : State) (nbits w : Nat) : State := withCommandInFlight s (cmdOfTableWord nbits w)

end Sys2Proof.Machine
end

