-- ==== Sys2Proof/Machine/Assembler.lean ====
section
/-! DEFINITION. The written form of commands and host programs, and disassembly (spec 30_encoding.md R75 to R78).
The text is a convention of the spec, not of the unit: nothing in `step` depends on this file. -/

namespace Sys2Proof.Machine

/-! Disassembly (R77, R78). -/

/-- The mnemonic of R64, with the polarity suffix that ENC is always written with (R75, R77). -/
def mnemonicText : Instr → String
  | .enc false => "ENC.LO"
  | .enc true => "ENC.HI"
  | .clen => "CLEN"
  | .dec => "DEC"
  | .lead => "LEAD"
  | .eq => "EQ"
  | .cat => "CAT"
  | .split => "SPLIT"
  | .align => "ALIGN"
  | .write => "WRITE"
  | .read => "READ"

/-- One upper-case hexadecimal digit. -/
def hexDigit (n : Nat) : Char :=
  ['0', '1', '2', '3', '4', '5', '6', '7', '8', '9', 'A', 'B', 'C', 'D', 'E', 'F'].getD n '?'

/-- A command word as four hex digits (R78). -/
def hexWord (cmd : CmdWord) : String :=
  String.ofList
    [hexDigit (cmd.extractLsb' 12 4).toNat, hexDigit (cmd.extractLsb' 8 4).toNat,
     hexDigit (cmd.extractLsb' 4 4).toNat, hexDigit (cmd.extractLsb' 0 4).toNat]

/-- Disassembly of any CMD value (R78). -/
def disassemble (cmd : CmdWord) : String :=
  match decode cmd with
  | .ok i => mnemonicText i
  | .error _ => ".illegal 0x" ++ hexWord cmd

/-! Host programs as data (R76). -/

/-- What `.save` may store: a result codeword, the scalar result, or the result lanes i..j (R76). -/
inductive Saved where
  | regR
  | regQ
  | regRScl
  | bout (i j : Nat)
deriving DecidableEq, Repr

/-- The FIELDs of `.expect` that hold a number. R76 does not list the fields: these are outputs of 10_state.md R43 and
fields of STATUS (R33), by their names there, a choice of the model (log 16). -/
inductive ScalarField where
  | regRScl | status | cmdReady | code | cause | fault | busy | fcause
deriving DecidableEq, Repr

/-- What `.expect` states: a FIELD and the value the rules give it (R76). The value is written as an operand of its
kind is, `%x` included. Which fields there are is a choice of the model (log 16). -/
inductive Expected where
  | regR (v : CodewordSource)
  | regQ (v : CodewordSource)
  | scalar (field : ScalarField) (v : ScalarSource)
  | bout (i j : Nat) (v : BytesSource)
deriving DecidableEq, Repr

/-- One line of a host program (R75, R76). -/
inductive HostLine where
  /-- A command line: the host issues the command and waits for its completion. -/
  | issue (c : AsmCommand)
  /-- `.save %x = ...`. -/
  | save (x : String) (v : Saved)
  /-- `.append %x, BOUT[i..j]`. -/
  | append (x : String) (i j : Nat)
  /-- `RST`. -/
  | rst
  /-- `.expect FIELD = v`. -/
  | expect (e : Expected)
deriving DecidableEq, Repr

/-! Reading the text. Blanks separate words and mean nothing else; `;` starts a comment (log 11). -/

/-- The lexical units of a line. -/
inductive Token where
  | word (s : String)
  | var (s : String)
  | num (n : Nat)
  | sym (c : Char)
deriving DecidableEq, Repr

/-- The value of a digit in base 10 or 16. -/
def digitValue (base : Nat) (c : Char) : Option Nat :=
  let d :=
    if '0' ≤ c ∧ c ≤ '9' then c.toNat - '0'.toNat
    else if 'A' ≤ c ∧ c ≤ 'F' then c.toNat - 'A'.toNat + 10
    else if 'a' ≤ c ∧ c ≤ 'f' then c.toNat - 'a'.toNat + 10
    else base
  if d < base then some d else none

/-- The number a non-empty digit string writes. -/
def digitsValue (base : Nat) : (soFar : Nat) → List Char → Option Nat
  | n, [] => some n
  | n, c :: cs => (digitValue base c).bind fun d => digitsValue base (n * base + d) cs

/-- The token a run of letters, digits, `_` and `%` writes. -/
def runToken : List Char → Option Token
  | '%' :: c :: cs => if (c :: cs).contains '%' then none else some (.var (String.ofList (c :: cs)))
  | '0' :: 'x' :: c :: cs => (digitsValue 16 0 (c :: cs)).map .num
  | c :: cs =>
    if '0' ≤ c ∧ c ≤ '9' then (digitsValue 10 0 (c :: cs)).map .num
    else if (c :: cs).contains '%' then none
    else some (.word (String.ofList (c :: cs)))
  | [] => none

/-- Put the token of the run read so far (kept reversed) before the rest. -/
def flushRun (run : List Char) (rest : Option (List Token)) : Option (List Token) :=
  if run.isEmpty then rest
  else (runToken run.reverse).bind fun t => rest.map (t :: ·)

/-- The tokens of a line. -/
def tokenize : List Char → (run : List Char) → Option (List Token)
  | [], run => flushRun run (some [])
  | c :: cs, run =>
    if c = ';' then flushRun run (some [])
    else if c.isAlphanum ∨ c = '_' ∨ c = '%' then tokenize cs (c :: run)
    else if c = ' ' ∨ c = '\t' then flushRun run (tokenize cs [])
    else if c = '=' ∨ c = ',' ∨ c = '(' ∨ c = ')' ∨ c = '[' ∨ c = ']' ∨ c = '.' then
      flushRun run ((tokenize cs []).map (.sym c :: ·))
    else none

/-- A mnemonic (R64, R75). -/
def parseMnemonic : List Token → Option (Instr × List Token)
  | .word "ENC" :: .sym '.' :: .word "LO" :: ts => some (.enc false, ts)
  | .word "ENC" :: .sym '.' :: .word "HI" :: ts => some (.enc true, ts)
  | .word "CLEN" :: ts => some (.clen, ts)
  | .word "DEC" :: ts => some (.dec, ts)
  | .word "LEAD" :: ts => some (.lead, ts)
  | .word "EQ" :: ts => some (.eq, ts)
  | .word "CAT" :: ts => some (.cat, ts)
  | .word "SPLIT" :: ts => some (.split, ts)
  | .word "ALIGN" :: ts => some (.align, ts)
  | .word "WRITE" :: ts => some (.write, ts)
  | .word "READ" :: ts => some (.read, ts)
  | _ => none

/-- A written number that fits a field of `width` bits. -/
def fits (width n : Nat) : Option (BitVec width) :=
  if n < 2 ^ width then some (BitVec.ofNat width n) else none

/-- `(val,len)`. -/
def parsePair : List Token → Option ((CodeVal × CodeLen) × List Token)
  | .sym '(' :: .num v :: .sym ',' :: .num n :: .sym ')' :: ts =>
    (fits 64 v).bind fun v => (fits 7 n).map fun n => ((v, n), ts)
  | _ => none

/-- A codeword operand: `(val,len)`, `R`, `Q` or `%x` (R75, R76). -/
def parseCodeword : List Token → Option (CodewordSource × List Token)
  | .word "R" :: ts => some (.regR, ts)
  | .word "Q" :: ts => some (.regQ, ts)
  | .var x :: ts => some (.var x, ts)
  | ts => (parsePair ts).map fun ((v, n), rest) => (.literal v n, rest)

/-- A scalar operand: a number or `%x`. -/
def parseScalar : List Token → Option (ScalarSource × List Token)
  | .num n :: ts => (fits 32 n).map fun n => (.literal n, ts)
  | .var x :: ts => some (.var x, ts)
  | _ => none

/-- One byte or more, with commas between them, up to `]`: the form R75 gives, so a comma before `]` is refused
(log 11). -/
def parseByteItems : List Token → Option (List Byte × List Token)
  | .num b :: .sym ']' :: ts => (fits 8 b).map fun b => ([b], ts)
  | .num b :: .sym ',' :: ts =>
    (fits 8 b).bind fun b => (parseByteItems ts).map fun (bs, rest) => (b :: bs, rest)
  | _ => none

/-- The bytes after `[`, up to `]`. The list may be empty, by the model's choice (log 11). -/
def parseByteList : List Token → Option (List Byte × List Token)
  | .sym ']' :: ts => some ([], ts)
  | ts => parseByteItems ts

/-- `BOUT[i..j]`. A range that names no lanes is refused as text (log 11). -/
def parseBout : List Token → Option ((Nat × Nat) × List Token)
  | .word "BOUT" :: .sym '[' :: .num i :: .sym '.' :: .sym '.' :: .num j :: .sym ']' :: ts =>
    if lanesNamed i j then some ((i, j), ts) else none
  | _ => none

/-- The bytes of BIN: `[b0,b1,...]`, `BOUT[i..j]`, `%s[i..]` or `%s` (R75, R76). -/
def parseBytes : List Token → Option (BytesSource × List Token)
  | .sym '[' :: ts => (parseByteList ts).map fun (bs, rest) => (.literal bs, rest)
  | .var x :: .sym '[' :: .num i :: .sym '.' :: .sym '.' :: .sym ']' :: ts => some (.var x i, ts)
  | .var x :: ts => some (.var x 0, ts)
  | ts => (parseBout ts).map fun ((i, j), rest) => (.bout i j, rest)

/-- One port assignment (R75). -/
def parseAssign : List Token → Option (Assign × List Token)
  | .word "A" :: .sym '=' :: ts => (parseCodeword ts).map fun (c, rest) => (.a c, rest)
  | .word "B" :: .sym '=' :: ts => (parseCodeword ts).map fun (c, rest) => (.b c, rest)
  | .word "S0" :: .sym '=' :: ts => (parseScalar ts).map fun (n, rest) => (.s0 n, rest)
  | .word "S1" :: .sym '=' :: ts => (parseScalar ts).map fun (n, rest) => (.s1 n, rest)
  | .word "BIN" :: .sym '=' :: ts => (parseBytes ts).map fun (bs, rest) => (.bin bs, rest)
  | _ => none

/-- Port assignments between commas, at most `fuel` of them. -/
def parseAssigns : (fuel : Nat) → List Token → Option (List Assign)
  | 0, _ => none
  | fuel + 1, ts =>
    match parseAssign ts with
    | some (a, []) => some [a]
    | some (a, .sym ',' :: rest) => (parseAssigns fuel rest).map (a :: ·)
    | _ => none

/-- A command line (R75): a mnemonic and assignments to ports that the command reads. -/
def parseCommand (ts : List Token) : Option AsmCommand :=
  (parseMnemonic ts).bind fun (i, rest) =>
    (if rest.isEmpty then some [] else parseAssigns rest.length rest).bind fun ops =>
      if (AsmCommand.mk i ops).wf then some ⟨i, ops⟩ else none

/-- What stands after `.save %x =` (R76). -/
def parseSaved : List Token → Option Saved
  | [.word "R"] => some .regR
  | [.word "Q"] => some .regQ
  | [.word "R_SCL"] => some .regRScl
  | ts =>
    match parseBout ts with
    | some ((i, j), []) => some (.bout i j)
    | _ => none

/-- A number FIELD of `.expect` by its name (log 16). -/
def scalarField : String → Option ScalarField
  | "R_SCL" => some .regRScl
  | "STATUS" => some .status
  | "CMD_READY" => some .cmdReady
  | "CODE" => some .code
  | "CAUSE" => some .cause
  | "FAULT" => some .fault
  | "BUSY" => some .busy
  | "FCAUSE" => some .fcause
  | _ => none

/-- A parsed value with nothing after it. -/
def atEnd {α : Type} : Option (α × List Token) → Option α
  | some (v, []) => some v
  | _ => none

/-- What stands after `.expect` (R76); the fields it may name are the model's choice (log 16). -/
def parseExpected : List Token → Option Expected
  | .word "R" :: .sym '=' :: ts => (atEnd (parseCodeword ts)).map .regR
  | .word "Q" :: .sym '=' :: ts => (atEnd (parseCodeword ts)).map .regQ
  | .word "BOUT" :: rest =>
    match parseBout (.word "BOUT" :: rest) with
    | some ((i, j), .sym '=' :: ts) => (atEnd (parseBytes ts)).map (.bout i j)
    | _ => none
  | .word name :: .sym '=' :: ts => (scalarField name).bind fun f => (atEnd (parseScalar ts)).map (.scalar f)
  | _ => none

/-- One line of a host program (R75, R76). A blank line is no such line (`parseProgram` passes over it, log 11). -/
def parseHostLine (line : String) : Option HostLine :=
  (tokenize line.toList []).bind fun ts =>
    match ts with
    | [.word "RST"] => some .rst
    | .sym '.' :: .word "save" :: .var x :: .sym '=' :: rest => (parseSaved rest).map (.save x)
    | .sym '.' :: .word "append" :: .var x :: .sym ',' :: rest =>
      match parseBout rest with
      | some ((i, j), []) => some (.append x i j)
      | _ => none
    | .sym '.' :: .word "expect" :: rest => (parseExpected rest).map .expect
    | _ => (parseCommand ts).map .issue

/-- A line with nothing on it but blanks and a comment. -/
def isBlankLine (line : String) : Bool := decide (tokenize line.toList [] = some [])

/-- A host program, one line each. Blank and comment-only lines stand for nothing, by the model's choice: the spec does
not say whether a program may have them (log 11). -/
def parseProgram (lines : List String) : Option (List HostLine) :=
  (lines.filter fun line => !isBlankLine line).mapM parseHostLine

/-! Writing a command as text (R75). -/

/-- A codeword operand as text, its numbers in decimal. -/
def codewordText : CodewordSource → String
  | .literal v n => "(" ++ toString v.toNat ++ "," ++ toString n.toNat ++ ")"
  | .regR => "R"
  | .regQ => "Q"
  | .var x => "%" ++ x

/-- A scalar operand as text. -/
def scalarText : ScalarSource → String
  | .literal n => toString n.toNat
  | .var x => "%" ++ x

/-- The bytes of BIN as text. -/
def bytesText : BytesSource → String
  | .literal bytes => "[" ++ String.intercalate "," (bytes.map fun b => toString b.toNat) ++ "]"
  | .bout i j => "BOUT[" ++ toString i ++ ".." ++ toString j ++ "]"
  | .var x i => "%" ++ x ++ "[" ++ toString i ++ "..]"

/-- A port assignment as text. -/
def assignText : Assign → String
  | .a c => "A=" ++ codewordText c
  | .b c => "B=" ++ codewordText c
  | .s0 n => "S0=" ++ scalarText n
  | .s1 n => "S1=" ++ scalarText n
  | .bin bytes => "BIN=" ++ bytesText bytes

/-- A command line: the mnemonic, then the assignments between commas (R75). -/
def commandText (c : AsmCommand) : String :=
  match c.operands with
  | [] => mnemonicText c.instr
  | ops => mnemonicText c.instr ++ " " ++ String.intercalate ", " (ops.map assignText)

end Sys2Proof.Machine
end

