-- ==== Sys2Proof/Machine/HostAgent.lean ====
section
/-! DEFINITION. The host, the second agent of spec 10_state.md R20: how it drives the unit through one line of a
program (30_encoding.md R75, R76; 70_reset_and_hazards.md R165, R170, R174), and the final state of a run (R175).
It calls `step` and changes only the ports; `step` does not depend on it. -/

namespace Sys2Proof.Machine

/-- The kinds of value a host variable holds (R76). -/
inductive HostValue where
  | codeword (c : Codeword)
  | scalar (n : Scalar)
  | bytes (bs : List Byte)
deriving DecidableEq, Repr

/-- Why a host program is abandoned; the unit itself never stops. -/
inductive HostError where
  /-- The command line assigns a port the command does not read, or one twice, or more than eight bytes (R75). -/
  | badCommand
  /-- A `%x` that no line before has saved, or that holds another kind of value. -/
  | badVariable (x : String)
  /-- A range `BOUT[i..j]` that names no lanes (log 11). -/
  | badLanes
  /-- An `.expect` whose value differs. -/
  | expectationFailed
  /-- The unit stopped; `step` never does (60_exceptions.md R137). -/
  | unitStopped
deriving DecidableEq, Repr

/-- The host with the unit it drives: its variables, the latest binding first. -/
structure HostState where
  unit : State
  vars : List (String × HostValue)
deriving DecidableEq, Repr

/-- The host at boot, with the unit as reset leaves it (70_reset_and_hazards.md R165). -/
def HostState.boot : HostState := ⟨State.reset, []⟩

/-- Bind a variable, replacing what it held. -/
def HostState.bind (h : HostState) (x : String) (v : HostValue) : HostState :=
  { h with vars := (x, v) :: h.vars.filter fun p => p.1 != x }

/-- Result lanes i..j as bytes (R76). The spec does not say what a range with a lane above 7, or with i > j, would mean:
the host refuses the line, by the model's choice (log 11). -/
def boutBytes (s : State) (i j : Nat) : Except HostError (List Byte) :=
  if lanesNamed i j then .ok ((s.bout.toList.drop i).take (j + 1 - i)) else .error .badLanes

/-- Bytes put on lanes 0, 1, ... with the unlisted lanes 0 (R75). Bytes past the eighth stay with the
host, and a host buffer with none left drives zeros: for buffers both are the model's choice (log 12). -/
def lanesOfBytes (bs : List Byte) : Lanes := Vector.ofFn fun i => bs.getD i.val 0

/-- The codeword an operand stands for. -/
def sourceCodeword (h : HostState) : CodewordSource → Except HostError Codeword
  | .literal v n => .ok ⟨v, n⟩
  | .regR => .ok h.unit.r
  | .regQ => .ok h.unit.q
  | .var x =>
    match h.vars.lookup x with
    | some (.codeword c) => .ok c
    | _ => .error (.badVariable x)

/-- The scalar an operand stands for. -/
def sourceScalar (h : HostState) : ScalarSource → Except HostError Scalar
  | .literal n => .ok n
  | .var x =>
    match h.vars.lookup x with
    | some (.scalar n) => .ok n
    | _ => .error (.badVariable x)

/-- The bytes an operand stands for. -/
def sourceByteList (h : HostState) : BytesSource → Except HostError (List Byte)
  | .literal bs => .ok bs
  | .bout i j => boutBytes h.unit i j
  | .var x i =>
    match h.vars.lookup x with
    | some (.bytes bs) => .ok (bs.drop i)
    | _ => .error (.badVariable x)

/-- Drive one port. -/
def applyAssign (h : HostState) (c : Command) : Assign → Except HostError Command
  | .a src => (sourceCodeword h src).map fun v => { c with a := v }
  | .b src => (sourceCodeword h src).map fun v => { c with b := v }
  | .s0 src => (sourceScalar h src).map fun n => { c with s0 := n }
  | .s1 src => (sourceScalar h src).map fun n => { c with s1 := n }
  | .bin src => (sourceByteList h src).map fun bs => { c with bin := lanesOfBytes bs }

/-- Drive the listed ports; a port not listed keeps its level (log 12). -/
def applyAssigns (h : HostState) : Command → List Assign → Except HostError Command
  | c, [] => .ok c
  | c, a :: rest =>
    match applyAssign h c a with
    | .ok c' => applyAssigns h c' rest
    | .error e => .error e

/-- The outcome of some edges, for the host. -/
def edgesResult : Host.Outcome State Fault Refusal → Except HostError State
  | .next s => .ok s
  | .fault _ => .error .unitStopped
  | .refused _ => .error .unitStopped

/-- `s` with nothing offered and RST released. -/
def offerNothing (s : State) : State := { s with ports := { s.ports with cmdValid := false, rst := false } }

/-- `s` with a command offered (R174, issue). -/
def offer (s : State) (c : Command) : State := { s with ports := ⟨c, true, false⟩ }

/-- The edges after which no command is in flight, if none is offered. -/
def edgesToIdle (s : State) : Nat := if statusBusy s.status then s.wait + 1 else 0

/-- Wait for BUSY = 0 with nothing offered (R174, wait). -/
def waitIdle (s : State) : Except HostError State :=
  edgesResult (clockEdges (edgesToIdle s) (offerNothing s))

/-- Issue a command to an idle unit and wait for its completion: offer it for one edge, drop CMD_VALID after the
acceptance edge (R171), and wait (R170). -/
def issueCommand (s : State) (c : Command) : Except HostError State :=
  match edgesResult (clockEdge (offer s c)) with
  | .ok accepted => waitIdle accepted
  | .error e => .error e

/-- A command line: wait for CMD_READY, drive CMD and the listed ports, issue, wait. -/
def hostIssue (h : HostState) (c : AsmCommand) : Except HostError HostState :=
  if c.wf then
    match waitIdle h.unit with
    | .error e => .error e
    | .ok idle =>
      match applyAssigns { h with unit := idle } { idle.ports.command with cmd := encode c.instr } c.operands with
      | .error e => .error e
      | .ok cmd => (issueCommand idle cmd).map fun s => { h with unit := s }
  else .error .badCommand

/-- The value `.save` stores. -/
def savedValue (s : State) : Saved → Except HostError HostValue
  | .regR => .ok (.codeword s.r)
  | .regQ => .ok (.codeword s.q)
  | .regRScl => .ok (.scalar s.rScl)
  | .bout i j => (boutBytes s i j).map .bytes

/-- A number FIELD of `.expect`, as the host reads it from the outputs (log 16). -/
def scalarFieldValue (s : State) : ScalarField → Scalar
  | .regRScl => s.rScl
  | .status => s.status
  | .cmdReady => if cmdReady s then 1 else 0
  | .code => (statusCode s.status).setWidth 32
  | .cause => (statusCause s.status).setWidth 32
  | .fault => if statusFault s.status then 1 else 0
  | .busy => if statusBusy s.status then 1 else 0
  | .fcause => (statusFcause s.status).setWidth 32

/-- Does an output hold the value `.expect` states? -/
def expectedHolds (h : HostState) : Expected → Except HostError Bool
  | .regR v => (sourceCodeword h v).map fun c => decide (h.unit.r = c)
  | .regQ v => (sourceCodeword h v).map fun c => decide (h.unit.q = c)
  | .scalar f v => (sourceScalar h v).map fun n => decide (scalarFieldValue h.unit f = n)
  | .bout i j v =>
    match boutBytes h.unit i j with
    | .error e => .error e
    | .ok lanes => (sourceByteList h v).map fun bs => decide (lanes = bs)

/-- RST: RST = 1 for one rising edge, then released (R76, 70_reset_and_hazards.md R165). -/
def hostReset (s : State) : Except HostError State :=
  (edgesResult (clockEdge { s with ports := { s.ports with rst := true } })).map fun t =>
    { t with ports := { t.ports with rst := false } }

/-- One line of a host program. -/
def hostLine (h : HostState) : HostLine → Except HostError HostState
  | .issue c => hostIssue h c
  | .save x v => (savedValue h.unit v).map fun saved => h.bind x saved
  | .append x i j =>
    match h.vars.lookup x with
    | some (.bytes bs) => (boutBytes h.unit i j).map fun lanes => h.bind x (.bytes (bs ++ lanes))
    | _ => .error (.badVariable x)
  | .rst => (hostReset h.unit).map fun s => { h with unit := s }
  | .expect e =>
    match expectedHolds h e with
    | .error err => .error err
    | .ok true => .ok h
    | .ok false => .error .expectationFailed

/-- A host program, line by line. -/
def runHost : List HostLine → HostState → Except HostError HostState
  | [], h => .ok h
  | line :: rest, h =>
    match hostLine h line with
    | .ok h' => runHost rest h'
    | .error e => .error e

/-- The final state of a run (R175): R, Q, R_SCL, BOUT and STATUS, and the host's own variables. It is the end of a
run only once BUSY = 0. -/
def HostState.finalState (h : HostState) :
    Option (Codeword × Codeword × Scalar × Lanes × BitVec 32 × List (String × HostValue)) :=
  if statusBusy h.unit.status then none
  else some (h.unit.r, h.unit.q, h.unit.rScl, h.unit.bout, h.unit.status, h.vars)

end Sys2Proof.Machine
end

