-- ==== Sys2Proof/Safety.lean ====
section
/-! DEFINITION. The terms claims about the unit are stated in: canonical codewords, the stream bits of codewords and
lanes, what a completion leaves, and the invariant every edge keeps (spec 10_state.md R25, R33 to R39). -/

namespace Sys2Proof.Safety

open Sys2Proof.Machine

/-- A canonical codeword: a length in 0..64 and no value bit at or above it (00_scope.md R19, R25). -/
abbrev Canonical (c : Codeword) : Prop := c.length ≤ 64 ∧ c.val.toNat < 2 ^ c.length

/-- Bit i of a codeword as every command reads it: bits at or above the length count as 0 (40_codeword.md R82). -/
def bitAt (c : Codeword) (i : Nat) : Bool := decide (i < c.length) && c.val.getLsbD i

/-- Bit p of a codeword in stream order, the first being the highest significant bit (20_memory.md R47). -/
def streamBit (c : Codeword) (p : Nat) : Bool := bitAt c (c.length - 1 - p)

/-- Bit p of the stream the byte lanes carry: wire byte p/8, and within it the bits from bit 0 up
(20_memory.md R50, R51). -/
def laneBit (lanes : Lanes) (p : Nat) : Bool := (lanes.toList.getD (p / 8) 0).getLsbD (p % 8)

/-- A window of w bits whose first r bits are equal and whose next bit, bit w-1-r, is the first to differ
(42_scanner_decoder.md R97). -/
abbrev RunThenMarker (bit : Nat → Bool) (w r : Nat) : Prop :=
  1 ≤ r ∧ r < w ∧ (∀ j, j < r → bit (w - 1 - j) = bit (w - 1)) ∧ bit (w - 1 - r) = !bit (w - 1)

/-- A window of w bits that are all equal; every window of at most one bit is one. -/
abbrev NoFlip (bit : Nat → Bool) (w : Nat) : Prop := ∀ j, j < w → bit (w - 1 - j) = bit (w - 1)

/-- The code of prefix width k, polarity hi and payload `offset` (30_encoding.md R71), as bits of a codeword. -/
abbrev CodeLayout (c : Codeword) (k : Nat) (hi : Bool) (offset : Nat) : Prop :=
  c.length = 2 * k + 1 ∧
  (∀ j, k + 1 ≤ j → j ≤ 2 * k → bitAt c j = hi) ∧
  bitAt c k = (!hi) ∧
  c.val.toNat % 2 ^ k = offset

/-- c is the code of value v and polarity hi: of some width k, with v the first value of that width plus the payload
(30_encoding.md R71, 41_encoder.md R91). -/
abbrev EncodesTo (v : Nat) (hi : Bool) (c : Codeword) : Prop :=
  ∃ k offset, 1 ≤ k ∧ k ≤ 31 ∧ offset < 2 ^ k ∧ v = (2 ^ k - 2) + offset ∧ Canonical c ∧ CodeLayout c k hi offset

/-- One complete code: some width 1..31, polarity and payload lay it out (00_scope.md R19, 42_scanner_decoder.md R103,
R106). -/
abbrev CompleteCode (c : Codeword) : Prop :=
  ∃ k hi offset, 1 ≤ k ∧ k ≤ 31 ∧ offset < 2 ^ k ∧ CodeLayout c k hi offset

/-- Codes laid end to end in a stream of `total` bits from position `pos` on: one run length per code
(44_serialization.md R127). -/
def CodesFrom (bit : Nat → Bool) (total : Nat) : (pos : Nat) → (runs : List Nat) → Prop
  | _, [] => True
  | pos, r :: rest =>
    1 ≤ r ∧ (∀ j, j < r → bit (pos + j) = bit pos) ∧ bit (pos + r) = (!bit pos) ∧ pos + (2 * r + 1) ≤ total ∧
    CodesFrom bit total (pos + (2 * r + 1)) rest

/-- The bits a list of codes takes (44_serialization.md R127). -/
def bitsUsed (runs : List Nat) : Nat := (runs.map fun r => 2 * r + 1).sum

/-- Every result register is zero (R39). -/
abbrev ResultsZero (s : State) : Prop :=
  s.r = Codeword.zero ∧ s.q = Codeword.zero ∧ s.rScl = 0 ∧ s.bout = zeroLanes

/-- What every completion leaves alone or clears: the ports, the coming latencies, the parameter ENC_LIMIT, BUSY = 0,
the reserved STATUS bits (60_exceptions.md R138). What it leaves in the latch and `wait` is stated apart (log 3, 6). -/
abbrev CompletionFrame (s t : State) : Prop :=
  t.ports = s.ports ∧ t.extraCycles = s.extraCycles ∧ t.encLimit = s.encLimit ∧
  statusBusy t.status = false ∧ statusReservedZero t.status = true

/-- An OK completion from s to t (60_exceptions.md R139): FAULT and FCAUSE unchanged. -/
abbrev CompletesOk (s t : State) : Prop :=
  statusCode t.status = 0 ∧ statusCause t.status = 0 ∧
  statusFault t.status = statusFault s.status ∧ statusFcause t.status = statusFcause s.status ∧
  CompletionFrame s t

/-- A recoverable failure from s to t, MALFORMED, NOSPACE or REJECTED (R140, R142, R143): results zero, FAULT and
FCAUSE unchanged. -/
abbrev FailsRecoverably (s t : State) (code : BitVec 3) (cause : BitVec 4) : Prop :=
  statusCode t.status = code ∧ statusCause t.status = cause ∧ ResultsZero t ∧
  statusFault t.status = statusFault s.status ∧ statusFcause t.status = statusFcause s.status ∧
  CompletionFrame s t

/-- A contract violation from s to t (R141): CODE = CONTRACT, results zero, FAULT set and FCAUSE the cause. -/
abbrev ViolatesContract (s t : State) (cause : BitVec 4) : Prop :=
  statusCode t.status = 3 ∧ statusCause t.status = cause ∧ ResultsZero t ∧
  statusFault t.status = true ∧ statusFcause t.status = cause ∧ CompletionFrame s t

/-- An OK completion whose only result is R (R39). -/
abbrev CompletesWithR (s t : State) : Prop :=
  CompletesOk s t ∧ t.q = Codeword.zero ∧ t.rScl = 0 ∧ t.bout = zeroLanes

/-- An OK completion whose only result is R_SCL, holding n (R39). -/
abbrev CompletesWithScalar (s t : State) (n : Nat) : Prop :=
  CompletesOk s t ∧ t.rScl.toNat = n ∧ t.r = Codeword.zero ∧ t.q = Codeword.zero ∧ t.bout = zeroLanes

/-- A command is at its completion edge: RST = 0, BUSY = 1 and no edge left to wait for (70_reset_and_hazards.md R168). -/
abbrev AtCompletion (s : State) : Prop :=
  s.ports.rst = false ∧ statusBusy s.status = true ∧ s.wait = 0

/-- The (CODE, CAUSE) pairs the unit writes (R35). -/
def legalPairs : List (BitVec 3 × BitVec 4) :=
  [(0, 0), (1, 1), (1, 2), (1, 3), (1, 4), (2, 0), (3, 1), (3, 2), (3, 3), (3, 4), (3, 5), (3, 6), (3, 7), (3, 8), (4, 0)]

/-- The failure outcomes (CODE, CAUSE) of each command: the table of 60_exceptions.md R144. -/
def failuresOf : Instr → List (BitVec 3 × BitVec 4)
  | .enc _ => [(3, 4)]
  | .clen => [(3, 3), (3, 5), (1, 1)]
  | .dec => [(3, 3), (3, 6)]
  | .lead => [(3, 3), (3, 7)]
  | .eq => [(3, 3)]
  | .cat => [(3, 3), (3, 8)]
  | .split => [(3, 3), (1, 1), (1, 2)]
  | .align => [(3, 3)]
  | .write => [(3, 3), (2, 0)]
  | .read => [(1, 3), (1, 4), (1, 1), (1, 2)]

/-- The commands that write a codeword to R (R28). -/
def writesR : Instr → Bool
  | .enc _ | .cat | .split | .align | .read => true
  | .clen | .dec | .lead | .eq | .write => false

/-- The command that writes a codeword to Q (R29). -/
def writesQ : Instr → Bool
  | .split => true
  | .enc _ | .clen | .dec | .lead | .eq | .cat | .align | .write | .read => false

/-- The commands that write a scalar to R_SCL (R30). -/
def writesScalar : Instr → Bool
  | .clen | .dec | .lead | .eq | .write | .read => true
  | .enc _ | .cat | .split | .align => false

/-- The command that drives the byte lanes (R31). -/
def writesLanes : Instr → Bool
  | .write => true
  | .enc _ | .clen | .dec | .lead | .eq | .cat | .split | .align | .read => false

/-- Two latched commands agree on a port. For BIN only the lanes below min(S0, 8) count (R27). -/
def agreesOn (l l' : Command) : Port → Prop
  | .a => l.a = l'.a
  | .b => l.b = l'.b
  | .s0 => l.s0 = l'.s0
  | .s1 => l.s1 = l'.s1
  | .bin => ∀ i, i < min l.s0.toNat 8 → l.bin.toList.getD i 0 = l'.bin.toList.getD i 0

/-- What holds of the unit at every edge (R20, R25, R33 to R39, R41). -/
structure Inv (s : State) : Prop where
  /-- R satisfies the zero invariant (40_codeword.md R87). -/
  rCanonical : Canonical s.r
  /-- Q satisfies the zero invariant. -/
  qCanonical : Canonical s.q
  /-- Reserved STATUS bits read 0 (R33). -/
  reservedZero : statusReservedZero s.status = true
  /-- Only the listed (CODE, CAUSE) pairs occur (R34, R35). -/
  pairLegal : (statusCode s.status, statusCause s.status) ∈ legalPairs
  /-- With FAULT = 0, FCAUSE is 0 and the last outcome was neither CONTRACT nor REJECTED (R36). -/
  noFault : statusFault s.status = false →
    statusFcause s.status = 0 ∧ statusCode s.status ≠ 3 ∧ statusCode s.status ≠ 4
  /-- With FAULT = 1, FCAUSE is a contract cause, and the last outcome was that violation or a rejection (R36, R143). -/
  faulted : statusFault s.status = true →
    (3, statusFcause s.status) ∈ legalPairs ∧
    (statusCode s.status = 3 ∧ statusCause s.status = statusFcause s.status ∨ statusCode s.status = 4)
  /-- After any outcome but OK every result register is zero (R39). -/
  failureZero : statusCode s.status ≠ 0 → ResultsZero s
  /-- The latch holds a command only while BUSY = 1 (R41). -/
  latchEmpty : statusBusy s.status = false → s.latch = Command.empty ∧ s.wait = 0

end Sys2Proof.Safety
end

