-- ==== Sys2Proof/Certificates/Slice0/Obligations.lean ====
section
/-! DEFINITION. Statements about the unit, from the numbered rules of spec/. -/

open Sys2Proof Sys2Proof.Machine Sys2Proof.Safety

/-! The constant tables. -/

/-- 10_state.md R21: CCT has 32 entries, CCT[0] = 0, each next entry adds 2^k, so CCT[k] = 2^(k+1) - 2. The closed
form is the spec's inference from the recurrence. -/
def Obligations.CctFollowsRecurrence : Prop :=
  cctRom.length = 32 ∧ cct 0 = 0 ∧ (∀ k, 1 ≤ k → k ≤ 31 → cct k = cct (k - 1) + 2 ^ k) ∧
  ∀ k, k ≤ 31 → cct k = 2 ^ (k + 1) - 2

/-- 10_state.md R23: REV has 256 entries, bit i of REV[b] is bit 7-i of b, and REV is an involution. The spec marks
the formula as general knowledge and the involution as its inference. -/
def Obligations.RevReversesEveryByte : Prop :=
  revRom.length = 256 ∧ (∀ b : Byte, ∀ i, i < 8 → (rev b).getLsbD i = b.getLsbD (7 - i)) ∧
  ∀ b : Byte, rev (rev b) = b

/-! The command word. -/

/-- 30_encoding.md R69: eleven words are legal, and no other. The spec infers the set from R63 to R67. -/
def Obligations.LegalWordsAreTheEleven : Prop :=
  decode 0x0001 = .ok (.enc false) ∧ decode 0x0011 = .ok (.enc true) ∧ decode 0x0002 = .ok .clen ∧
  decode 0x0003 = .ok .dec ∧ decode 0x0004 = .ok .lead ∧ decode 0x0005 = .ok .eq ∧ decode 0x0006 = .ok .cat ∧
  decode 0x0007 = .ok .split ∧ decode 0x0008 = .ok .align ∧ decode 0x0009 = .ok .write ∧ decode 0x000A = .ok .read ∧
  ∀ (cmd : CmdWord) (i : Instr), decode cmd = .ok i →
    cmd ∈ [0x0001, 0x0011, 0x0002, 0x0003, 0x0004, 0x0005, 0x0006, 0x0007, 0x0008, 0x0009, 0x000A]

/-- Decoding and encoding agree both ways: every command's word decodes to it, and a legal word is the word of the
command it decodes to (30_encoding.md R63, R64, R68). -/
def Obligations.DecodeAndEncodeAgree : Prop :=
  (∀ i : Instr, i.wf = true → decode (encode i) = .ok i) ∧
  ∀ (cmd : CmdWord) (i : Instr), decode cmd = .ok i → encode i = cmd

/-- 30_encoding.md R67: a command with an undefined opcode completes CONTRACT / BAD_OPCODE, whatever its other bits,
and executes nothing. -/
def Obligations.UndefinedOpcodeViolatesContract : Prop :=
  ∀ s : State, AtCompletion s → statusFault s.status = false →
    s.latch.cmd.extractLsb' 0 4 ∈ [0x0#4, 0xB#4, 0xC#4, 0xD#4, 0xE#4, 0xF#4] →
    ∃ t, step s = .next t ∧ ViolatesContract s t 1

/-- 30_encoding.md R66: a defined opcode with a bit of CMD[15:5] set, or CMD[4] set outside ENC, completes
CONTRACT / RESERVED_BITS and executes nothing. -/
def Obligations.ReservedBitViolatesContract : Prop :=
  ∀ s : State, AtCompletion s → statusFault s.status = false →
    s.latch.cmd.extractLsb' 0 4 ∉ [0x0#4, 0xB#4, 0xC#4, 0xD#4, 0xE#4, 0xF#4] →
    (∃ j, 5 ≤ j ∧ j ≤ 15 ∧ s.latch.cmd.getLsbD j = true) ∨
      (s.latch.cmd.extractLsb' 0 4 ≠ 1#4 ∧ s.latch.cmd.getLsbD 4 = true) →
    ∃ t, step s = .next t ∧ ViolatesContract s t 2

/-- 30_encoding.md R78: an illegal word disassembles to `.illegal 0xNNNN` and a legal one to its mnemonic; the text
and the word are one-to-one on the legal words. One-to-one is the spec's inference from R69. -/
def Obligations.DisassemblyIsOneToOne : Prop :=
  (∀ (cmd : CmdWord) (e : Illegal), decode cmd = .error e → disassemble cmd = ".illegal 0x" ++ hexWord cmd) ∧
  (∀ (cmd : CmdWord) (i : Instr), decode cmd = .ok i → disassemble cmd = mnemonicText i) ∧
  ∀ (cmd cmd' : CmdWord) (i i' : Instr), decode cmd = .ok i → decode cmd' = .ok i' →
    disassemble cmd = disassemble cmd' → cmd = cmd'

/-! The edges: reset, acceptance, waiting, completion. -/

/-- The completion edge of a legal command is exec of the decoded command, and nothing is added around it
(30_encoding.md R68, 70_reset_and_hazards.md R168). -/
def Obligations.StepRunsDecodedCommand : Prop :=
  ∀ (s : State) (i : Instr), AtCompletion s → statusFault s.status = false → decode s.latch.cmd = .ok i →
    i.wf = true → step s = exec i s

/-- 60_exceptions.md R143: a command in flight while FAULT = 1 completes REJECTED, FAULT and FCAUSE stay and every
result is zero, and every output is the same whatever word and operands the latch holds. -/
def Obligations.FaultedUnitRejects : Prop :=
  ∀ s : State, AtCompletion s → statusFault s.status = true →
    ∃ t, step s = .next t ∧ FailsRecoverably s t 4 0 ∧
      ∀ l : Command, ∃ t', step { s with latch := l } = .next t' ∧ FailsRecoverably s t' 4 0 ∧ outputs t' = outputs t

/-- 70_reset_and_hazards.md R167: with RST = 0, CMD_VALID = 1 and CMD_READY = 1 the edge copies CMD and the data ports
to the latch and sets BUSY; at any other edge the data ports have no effect, and while RST = 1 or CMD_READY = 0
CMD_VALID has none. -/
def Obligations.AcceptanceLatchesThePorts : Prop :=
  (∀ s : State, s.ports.rst = false → s.ports.cmdValid = true → cmdReady s = true →
    ∃ t, step s = .next t ∧ t.latch = s.ports.command ∧ statusBusy t.status = true ∧ cmdReady t = false ∧
      t.r = s.r ∧ t.q = s.q ∧ t.rScl = s.rScl ∧ t.bout = s.bout ∧
      statusCode t.status = statusCode s.status ∧ statusCause t.status = statusCause s.status ∧
      statusFault t.status = statusFault s.status ∧ statusFcause t.status = statusFcause s.status ∧
      t.ports = s.ports) ∧
  (∀ (s t : State) (c : Command),
    ¬(s.ports.rst = false ∧ s.ports.cmdValid = true ∧ cmdReady s = true) → step s = .next t →
    step { s with ports := { s.ports with command := c } } = .next { t with ports := { t.ports with command := c } }) ∧
  ∀ (s t : State) (v : Bool), s.ports.rst = true ∨ cmdReady s = false → step s = .next t →
    step { s with ports := { s.ports with cmdValid := v } } = .next { t with ports := { t.ports with cmdValid := v } }

/-- An edge with RST = 0 that neither accepts nor completes a command changes no architectural state: an idle edge
changes nothing (60_exceptions.md R158), a waiting edge counts one edge of the latency (70_reset_and_hazards.md R169). -/
def Obligations.IdleAndWaitingEdgesHoldState : Prop :=
  (∀ s : State, s.ports.rst = false → statusBusy s.status = false → s.ports.cmdValid = false →
    step s = .next s) ∧
  ∀ (s : State) (n : Nat), s.ports.rst = false → statusBusy s.status = true → s.wait = n + 1 →
    step s = .next { s with wait := n }

/-- 70_reset_and_hazards.md R161, R162: an edge with RST = 1 sets every piece of state to its reset value, whatever the
unit is doing, and accepts no command. What such an edge leaves in the model's own fields is the model's choice: the
port levels stay (log 4), the coming latencies and the parameter ENC_LIMIT stay (log 2, 8), `wait` is 0 (log 3), and
the empty latch holds zeros (log 6). -/
def Obligations.ResetEdgeRestoresEverything : Prop :=
  ∀ s : State, s.ports.rst = true →
    ∃ t, step s = .next t ∧ ResultsZero t ∧ t.status = 0 ∧ t.latch = Command.empty ∧ t.wait = 0 ∧
      t.ports = s.ports ∧ t.extraCycles = s.extraCycles ∧ t.encLimit = s.encLimit ∧ cmdReady t = true

/-- 10_state.md R42: the value of every piece of state after reset, the two constant tables among them. CCT is given by
the closed form that R21 marks as derived from its recurrence, REV by the bit formula that R23 marks as general
knowledge. That the latch is empty is BUSY = 0; that an empty latch holds zeros is the model's choice (log 6) and not
stated here. -/
def Obligations.ResetStateIsAllZero : Prop :=
  (∀ k, k ≤ 31 → cct k = 2 ^ (k + 1) - 2) ∧ (∀ b : Byte, ∀ i, i < 8 → (rev b).getLsbD i = b.getLsbD (7 - i)) ∧
  State.reset.r = ⟨0, 0⟩ ∧ State.reset.q = ⟨0, 0⟩ ∧ State.reset.rScl = 0 ∧ (∀ i : Fin 8, State.reset.bout[i] = 0) ∧
  State.reset.status = 0x00000000#32 ∧ statusCode State.reset.status = 0 ∧ statusCause State.reset.status = 0 ∧
  statusFault State.reset.status = false ∧ statusBusy State.reset.status = false ∧
  statusFcause State.reset.status = 0 ∧ cmdReady State.reset = true

/-- 70_reset_and_hazards.md R168 with 10_state.md R40: a command accepted with latency LAT stays in flight for LAT - 1
edges, all results and CODE and CAUSE held, and completes at the LAT-th edge after acceptance; the ports are held and
RST stays 0. LAT is one more than the head of `extraCycles`, the parameter the model takes as an argument (log 2);
the statement holds for every list. That the completion leaves zeros in the latch is the model's choice (log 6). -/
def Obligations.CompletionComesAfterLatEdges : Prop :=
  ∀ s : State, s.ports.rst = false → s.ports.cmdValid = true → statusBusy s.status = false →
    (∀ j, j ≤ s.extraCycles.headD 0 →
      ∃ t, Host.Core.run core (j + 1) s = .next t ∧ statusBusy t.status = true ∧ t.latch = s.ports.command ∧
        t.r = s.r ∧ t.q = s.q ∧ t.rScl = s.rScl ∧ t.bout = s.bout ∧
        statusCode t.status = statusCode s.status ∧ statusCause t.status = statusCause s.status) ∧
    ∃ u, Host.Core.run core (s.extraCycles.headD 0 + 2) s = .next u ∧ statusBusy u.status = false ∧
      u.latch = Command.empty

/-- A completion empties the latch (10_state.md R41, R42: no command is in flight). That an empty latch holds zeros is
the model's choice (log 6), and so is `wait`, which is 0 then (log 3). -/
def Obligations.CompletionEmptiesTheLatch : Prop :=
  (∀ s t : State, AtCompletion s → step s = .next t → t.latch = Command.empty ∧ t.wait = 0) ∧
  ∀ (i : Instr) (s t : State), exec i s = .next t → t.latch = Command.empty ∧ t.wait = 0

/-- Every step answers a next state: no command hangs the unit and no error stops it (60_exceptions.md R137, R148). -/
def Obligations.EveryStepAnswersNext : Prop := ∀ s : State, ∃ t, step s = .next t

/-- CMD_VALID is a level: a completion edge accepts nothing, and a command still offered is accepted at the next edge
(70_reset_and_hazards.md R168, R169, R171). -/
def Obligations.HeldValidReissues : Prop :=
  ∀ s t u : State, AtCompletion s → s.ports.cmdValid = true → step s = .next t → step t = .next u →
    statusBusy t.status = false ∧ statusBusy u.status = true ∧ u.latch = s.ports.command

/-- The host's issue protocol runs one command: from an idle unit with FAULT = 0, offering a legal command for one
edge and then waiting leaves the outputs exec of that command gives, at every latency (70_reset_and_hazards.md
R174). That the host drops CMD_VALID after acceptance is the model's choice (log 12). -/
def Obligations.IssueProtocolRunsCommand : Prop :=
  ∀ (s : State) (c : Command) (i : Instr), statusBusy s.status = false → statusFault s.status = false →
    decode c.cmd = .ok i →
    ∃ t u, exec i { s with latch := c } = .next t ∧ issueCommand s c = .ok u ∧ outputs u = outputs t ∧
      cmdReady u = true

/-! STATUS, faults and the invariant. -/

/-- Every edge keeps the invariant: canonical R and Q, reserved STATUS bits 0, only the listed (CODE, CAUSE) pairs,
FCAUSE and FAULT together, zero results after a failure, an empty latch while BUSY = 0. That the empty latch holds
zeros is the model's choice (log 6). -/
def Obligations.EveryEdgeKeepsInvariant : Prop := ∀ s t : State, Inv s → step s = .next t → Inv t

/-- The state after reset meets the invariant. -/
def Obligations.ResetMeetsInvariant : Prop := Inv State.reset

/-- 40_codeword.md R87: every codeword a completion writes to R or Q satisfies the zero invariant, val < 2^len; a failed
completion and a command that produces no codeword write (0, 0). -/
def Obligations.ProducedCodewordsAreCanonical : Prop :=
  (∀ s t : State, AtCompletion s → step s = .next t →
    Canonical t.r ∧ Canonical t.q ∧
    (statusCode t.status ≠ 0 → t.r = Codeword.zero ∧ t.q = Codeword.zero)) ∧
  ∀ (i : Instr) (s t : State), exec i s = .next t →
    Canonical t.r ∧ Canonical t.q ∧ (writesR i = false → t.r = Codeword.zero) ∧ (writesQ i = false → t.q = Codeword.zero)

/-- A completion leaves no stale result: after any outcome but OK every result register is zero, and after OK every
register the command does not produce is zero (10_state.md R28 to R31, R39). -/
def Obligations.UnproducedResultsAreZero : Prop :=
  ∀ (i : Instr) (s t : State), exec i s = .next t →
    (statusCode t.status ≠ 0 → ResultsZero t) ∧
    (writesR i = false → t.r = Codeword.zero) ∧ (writesQ i = false → t.q = Codeword.zero) ∧
    (writesScalar i = false → t.rScl = 0) ∧ (writesLanes i = false → t.bout = zeroLanes)

/-- 60_exceptions.md R144: the complete list of outcomes of a completion. REJECTED when FAULT = 1, BAD_OPCODE and
RESERVED_BITS for illegal words, else OK or a failure of the command's row; and every failure of every row occurs. -/
def Obligations.OutcomesAreThoseListed : Prop :=
  (∀ s t : State, AtCompletion s → step s = .next t →
    (statusFault s.status = true → (statusCode t.status, statusCause t.status) = (4, 0)) ∧
    (statusFault s.status = false → decode s.latch.cmd = .error .badOpcode →
      (statusCode t.status, statusCause t.status) = (3, 1)) ∧
    (statusFault s.status = false → decode s.latch.cmd = .error .reservedBits →
      (statusCode t.status, statusCause t.status) = (3, 2)) ∧
    (∀ i, statusFault s.status = false → decode s.latch.cmd = .ok i →
      (statusCode t.status, statusCause t.status) = (0, 0) ∨
      (statusCode t.status, statusCause t.status) ∈ failuresOf i)) ∧
  ∀ (i : Instr) (p : BitVec 3 × BitVec 4), p ∈ failuresOf i →
    ∃ s t : State, exec i s = .next t ∧ (statusCode t.status, statusCause t.status) = p

/-- 10_state.md R36: FAULT is sticky. A CONTRACT completion sets it with FCAUSE = CAUSE; only reset clears it; while it
is set FCAUSE stays and every command completes REJECTED; FCAUSE is 0 whenever FAULT is 0. -/
def Obligations.FaultIsStickyUntilReset : Prop :=
  (∀ s t : State, AtCompletion s → step s = .next t → statusCode t.status = 3 →
    statusFault t.status = true ∧ statusFcause t.status = statusCause t.status) ∧
  (∀ s t : State, s.ports.rst = false → statusFault s.status = true → step s = .next t →
    statusFault t.status = true ∧ statusFcause t.status = statusFcause s.status ∧
    (AtCompletion s → statusCode t.status = 4)) ∧
  (∀ s t : State, statusFault s.status = false → step s = .next t → statusFault t.status = true →
    AtCompletion s ∧ statusCode t.status = 3) ∧
  ∀ s t : State, (statusFault s.status = false → statusFcause s.status = 0) → step s = .next t →
    (statusFault t.status = false → statusFcause t.status = 0)

/-- 40_codeword.md R81: an operand length above 64 is BAD_LENGTH for every command that reads that operand, A before B
and before any check of the command's own: whatever the other operands hold. Decode comes before it: an illegal word
fails with its own cause whatever the lengths. -/
def Obligations.BadLengthComesFirst : Prop :=
  (∀ (s : State) (e : Illegal), AtCompletion s → statusFault s.status = false → decode s.latch.cmd = .error e →
    ∃ t, step s = .next t ∧ ViolatesContract s t (match e with | .badOpcode => 1 | .reservedBits => 2)) ∧
  (∀ i : Instr, Port.a ∈ i.portsRead ↔ i ∈ [.clen, .dec, .lead, .eq, .cat, .split, .align, .write]) ∧
  (∀ i : Instr, Port.b ∈ i.portsRead ↔ i ∈ [.eq, .cat]) ∧
  ∀ (i : Instr) (s : State),
    (Port.a ∈ i.portsRead → 64 < s.latch.a.length →
      ∃ t, exec i s = .next t ∧ ViolatesContract s t 3) ∧
    (Port.b ∈ i.portsRead → s.latch.a.length ≤ 64 → 64 < s.latch.b.length →
      ∃ t, exec i s = .next t ∧ ViolatesContract s t 3)

/-- 10_state.md R27: a command's outcome depends on the ports it reads and nothing else: not on the other ports, not on
the lanes of BIN at or above min(S0, 8), not on any earlier command. The two runs are of units built with one value of
the parameter ENC_LIMIT (log 8). -/
def Obligations.OutcomeDependsOnPortsReadOnly : Prop :=
  ∀ (i : Instr) (s s' t t' : State), s.encLimit = s'.encLimit → (∀ p, p ∈ i.portsRead → agreesOn s.latch s'.latch p) →
    exec i s = .next t → exec i s' = .next t' →
    t.r = t'.r ∧ t.q = t'.q ∧ t.rScl = t'.rScl ∧ t.bout = t'.bout ∧
    statusCode t.status = statusCode t'.status ∧ statusCause t.status = statusCause t'.status

/-! The commands. -/

/-- 41_encoder.md R90 to R92, 30_encoding.md R71: a value below ENC_LIMIT = CCT[K] is written to R as k prefix bits
equal to hi, the marker ¬hi and the k-bit offset from CCT[k-1]; the two values at or above it are ENC_RANGE. A unit
built with the other ENC_LIMIT is the subject of EncLimitIsAParameter. -/
def Obligations.EncLaysOutTheCode : Prop :=
  (∀ cmd : CmdWord, cmd &&& 0xFFEF = 0x0001 → decode cmd = .ok (.enc (cmd.getLsbD 4))) ∧
  ∀ (hi : Bool) (s : State), s.encLimit = .cctK →
    (s.latch.s0.toNat < 4294967294 →
      ∃ t, exec (.enc hi) s = .next t ∧ CompletesWithR s t ∧ EncodesTo s.latch.s0.toNat hi t.r) ∧
    (4294967294 ≤ s.latch.s0.toNat → ∃ t, exec (.enc hi) s = .next t ∧ ViolatesContract s t 4)

/-- 00_scope.md R11, 92_eei_decisions.md D6 and open parameters: a unit built with ENC_LIMIT = CCT[K] - 1 encodes the
values below 4294967293 alike and refuses 4294967293 too. That the parameter is a field of State is the model's choice
(log 8). -/
def Obligations.EncLimitIsAParameter : Prop :=
  encLimitValue .cctK = cct 31 ∧ encLimitValue .cctKMinusOne = cct 31 - 1 ∧
  ∀ (hi : Bool) (s : State), s.encLimit = .cctKMinusOne →
    (s.latch.s0.toNat < 4294967293 →
      ∃ t, exec (.enc hi) s = .next t ∧ CompletesWithR s t ∧ EncodesTo s.latch.s0.toNat hi t.r) ∧
    (4294967293 ≤ s.latch.s0.toNat → ∃ t, exec (.enc hi) s = .next t ∧ ViolatesContract s t 4)

/-- No edge changes the ENC_LIMIT a unit is built with, and after reset it is the spec's (00_scope.md R11). That the
parameter is a field of State is the model's choice (log 8). -/
def Obligations.EncLimitIsFixed : Prop :=
  State.reset.encLimit = .cctK ∧ ∀ s t : State, step s = .next t → t.encLimit = s.encLimit

/-- 42_scanner_decoder.md R101: CLEN answers 2r+1 where a run of r equal bits at the top of the window meets a marker,
NO_MARKER where the window has no flip, BAD_WINDOW for a window above 64, BAD_LENGTH before it. -/
def Obligations.ClenMeasuresTheRun : Prop :=
  decode 0x0002 = .ok .clen ∧
  ∀ s : State,
    (∀ r, s.latch.a.length ≤ 64 → s.latch.s0.toNat ≤ 64 → RunThenMarker (bitAt s.latch.a) s.latch.s0.toNat r →
      ∃ t, exec .clen s = .next t ∧ CompletesWithScalar s t (2 * r + 1)) ∧
    (s.latch.a.length ≤ 64 → s.latch.s0.toNat ≤ 64 → NoFlip (bitAt s.latch.a) s.latch.s0.toNat →
      ∃ t, exec .clen s = .next t ∧ FailsRecoverably s t 1 1) ∧
    (s.latch.a.length ≤ 64 → 64 < s.latch.s0.toNat → ∃ t, exec .clen s = .next t ∧ ViolatesContract s t 5) ∧
    (64 < s.latch.a.length → ∃ t, exec .clen s = .next t ∧ ViolatesContract s t 3)

/-- 42_scanner_decoder.md R103 to R105: DEC of a code of width k and payload offset gives CCT[k-1] + offset, of either
polarity; an operand that is not exactly one complete code, of odd length above 2 that scans to its own length, is
NOT_A_CODE. -/
def Obligations.DecRecoversTheValue : Prop :=
  decode 0x0003 = .ok .dec ∧
  ∀ s : State,
    (∀ k hi offset, 1 ≤ k → k ≤ 31 → CodeLayout s.latch.a k hi offset →
      ∃ t, exec .dec s = .next t ∧ CompletesWithScalar s t ((2 ^ k - 2) + offset)) ∧
    (s.latch.a.length ≤ 64 → (CompleteCode s.latch.a ↔ s.latch.a.length % 2 = 1 ∧ s.latch.a.length > 2 ∧
      scan (canon s.latch.a).val s.latch.a.length = s.latch.a.length)) ∧
    (s.latch.a.length ≤ 64 → ¬ CompleteCode s.latch.a → ∃ t, exec .dec s = .next t ∧ ViolatesContract s t 6) ∧
    (64 < s.latch.a.length → ∃ t, exec .dec s = .next t ∧ ViolatesContract s t 3)

/-- 40_codeword.md R85, R86: LEAD answers the highest significant bit, and EMPTY_CODEWORD for a length of 0. -/
def Obligations.LeadReadsTheFirstBit : Prop :=
  decode 0x0004 = .ok .lead ∧
  ∀ s : State,
    (1 ≤ s.latch.a.length → s.latch.a.length ≤ 64 →
      ∃ t, exec .lead s = .next t ∧
        CompletesWithScalar s t (if s.latch.a.val.getLsbD (s.latch.a.length - 1) then 1 else 0)) ∧
    (s.latch.a.length = 0 → ∃ t, exec .lead s = .next t ∧ ViolatesContract s t 7) ∧
    (64 < s.latch.a.length → ∃ t, exec .lead s = .next t ∧ ViolatesContract s t 3)

/-- 40_codeword.md R83, R84: EQ answers 1 exactly when the lengths are equal and so are the significant bits, else 0;
bits at or above a length play no part. -/
def Obligations.EqComparesSignificantBits : Prop :=
  decode 0x0005 = .ok .eq ∧
  ∀ s : State,
    (s.latch.a.length ≤ 64 → s.latch.b.length ≤ 64 →
      (s.latch.a.length = s.latch.b.length → (∀ j, j < s.latch.a.length →
          s.latch.a.val.getLsbD j = s.latch.b.val.getLsbD j) →
        ∃ t, exec .eq s = .next t ∧ CompletesWithScalar s t 1) ∧
      (¬(s.latch.a.length = s.latch.b.length ∧ ∀ j, j < s.latch.a.length →
          s.latch.a.val.getLsbD j = s.latch.b.val.getLsbD j) →
        ∃ t, exec .eq s = .next t ∧ CompletesWithScalar s t 0)) ∧
    (64 < s.latch.a.length ∨ 64 < s.latch.b.length → ∃ t, exec .eq s = .next t ∧ ViolatesContract s t 3)

/-- 40_codeword.md R88: EQ is an equivalence that holds exactly of equal canonical forms, and of two ENC results
exactly when value and polarity agree. The spec infers this from R82 and R83. -/
def Obligations.EqIsAnEquivalence : Prop :=
  (∀ a, equalCodewords (canon a) (canon a) = true) ∧
  (∀ a b, equalCodewords (canon a) (canon b) = equalCodewords (canon b) (canon a)) ∧
  (∀ a b c, equalCodewords (canon a) (canon b) = true → equalCodewords (canon b) (canon c) = true →
    equalCodewords (canon a) (canon c) = true) ∧
  (∀ a b, equalCodewords (canon a) (canon b) = true ↔ canon a = canon b) ∧
  ∀ v v' hi hi', v < 4294967294 → v' < 4294967294 →
    (equalCodewords (canon (enc v hi)) (canon (enc v' hi')) = true ↔ v = v' ∧ hi = hi')

/-- 43_composition.md R109 to R111: CAT puts A's significant bits above B's; a sum of lengths above 64 is
CAT_OVERFLOW. -/
def Obligations.CatJoinsTheBits : Prop :=
  decode 0x0006 = .ok .cat ∧
  ∀ s : State,
    (s.latch.a.length + s.latch.b.length ≤ 64 →
      ∃ t, exec .cat s = .next t ∧ CompletesWithR s t ∧ t.r.length = s.latch.a.length + s.latch.b.length ∧
        Canonical t.r ∧ (∀ j, j < s.latch.b.length → t.r.val.getLsbD j = s.latch.b.val.getLsbD j) ∧
        ∀ j, j < s.latch.a.length → t.r.val.getLsbD (s.latch.b.length + j) = s.latch.a.val.getLsbD j) ∧
    (s.latch.a.length ≤ 64 → s.latch.b.length ≤ 64 → 64 < s.latch.a.length + s.latch.b.length →
      ∃ t, exec .cat s = .next t ∧ ViolatesContract s t 8) ∧
    (64 < s.latch.a.length ∨ 64 < s.latch.b.length → ∃ t, exec .cat s = .next t ∧ ViolatesContract s t 3)

/-- 43_composition.md R112: concat gives a canonical codeword, is associative where the total length fits, has (0,
0) as identity on both sides, and its bits are a's followed by b's in stream order. The spec infers this from R109. -/
def Obligations.ConcatIsAssociativeStreamOrder : Prop :=
  ∀ a b c : Codeword, Canonical a → Canonical b → Canonical c → a.length + b.length + c.length ≤ 64 →
    Canonical (concat a b) ∧ concat (concat a b) c = concat a (concat b c) ∧
    concat Codeword.zero a = a ∧ concat a Codeword.zero = a ∧
    (∀ p, p < a.length → streamBit (concat a b) p = streamBit a p) ∧
    ∀ p, p < b.length → streamBit (concat a b) (a.length + p) = streamBit b p

/-- 43_composition.md R113 to R116: SPLIT takes the leftmost code, 2r+1 bits where a run of r meets a marker, into R and
the bits below it into Q; no flip is NO_MARKER, a code longer than the buffer is OVERRUN. -/
def Obligations.SplitTakesTheLeftmostCode : Prop :=
  decode 0x0007 = .ok .split ∧
  ∀ s : State,
    (∀ r, s.latch.a.length ≤ 64 → RunThenMarker (bitAt s.latch.a) s.latch.a.length r →
      2 * r + 1 ≤ s.latch.a.length →
      ∃ t, exec .split s = .next t ∧ CompletesOk s t ∧ t.rScl = 0 ∧ t.bout = zeroLanes ∧
        t.r.length = 2 * r + 1 ∧ t.q.length = s.latch.a.length - (2 * r + 1) ∧ Canonical t.r ∧ Canonical t.q ∧
        (∀ j, j < 2 * r + 1 → t.r.val.getLsbD j = bitAt s.latch.a (s.latch.a.length - (2 * r + 1) + j)) ∧
        ∀ j, j < s.latch.a.length - (2 * r + 1) → t.q.val.getLsbD j = bitAt s.latch.a j) ∧
    (∀ r, s.latch.a.length ≤ 64 → RunThenMarker (bitAt s.latch.a) s.latch.a.length r →
      s.latch.a.length < 2 * r + 1 → ∃ t, exec .split s = .next t ∧ FailsRecoverably s t 1 2) ∧
    (s.latch.a.length ≤ 64 → NoFlip (bitAt s.latch.a) s.latch.a.length →
      ∃ t, exec .split s = .next t ∧ FailsRecoverably s t 1 1) ∧
    (64 < s.latch.a.length → ∃ t, exec .split s = .next t ∧ ViolatesContract s t 3)

/-- 43_composition.md R118, R119: ALIGN moves the bits up by the pad that brings the length to a multiple of 8, the pad
bits zero. -/
def Obligations.AlignPadsToWholeBytes : Prop :=
  decode 0x0008 = .ok .align ∧
  ∀ s : State,
    (s.latch.a.length ≤ 64 →
      ∃ t, exec .align s = .next t ∧ CompletesWithR s t ∧ t.r.length = 8 * ((s.latch.a.length + 7) / 8) ∧
        Canonical t.r ∧ (∀ j, j < t.r.length - s.latch.a.length → t.r.val.getLsbD j = false) ∧
        ∀ j, j < s.latch.a.length →
          t.r.val.getLsbD (t.r.length - s.latch.a.length + j) = s.latch.a.val.getLsbD j) ∧
    (64 < s.latch.a.length → ∃ t, exec .align s = .next t ∧ ViolatesContract s t 3)

/-- 43_composition.md R120: align is idempotent, never shortens, always gives a multiple of 8, is canonical, and
shifting its pad away gives the operand back. The spec infers this from R118. -/
def Obligations.AlignIsIdempotent : Prop :=
  ∀ c : Codeword, Canonical c →
    align (align c) = align c ∧ c.length ≤ (align c).length ∧ (align c).length % 8 = 0 ∧ Canonical (align c) ∧
    padOf c.length ≤ 7 ∧ (c.length % 8 = 0 → padOf c.length = 0) ∧ shr (align c).val (padOf c.length) = c.val

/-- 44_serialization.md R122 to R124: WRITE emits ceil8(len) bytes, bit b of byte i being bit 8i+b of the operand in
stream order and 0 past its end, the further lanes 0; too little capacity is NOSPACE. The stream order of the bits is
R125's, which the spec infers from R122, with the bit formula of REV that R23 marks as general knowledge. -/
def Obligations.WriteEmitsTheStream : Prop :=
  decode 0x0009 = .ok .write ∧
  ∀ s : State,
    (s.latch.a.length ≤ 64 → (s.latch.a.length + 7) / 8 ≤ s.latch.s0.toNat →
      ∃ t, exec .write s = .next t ∧ CompletesOk s t ∧ t.r = Codeword.zero ∧ t.q = Codeword.zero ∧
        t.rScl.toNat = (s.latch.a.length + 7) / 8 ∧
        ∀ p, p < 64 → laneBit t.bout p = (decide (p < s.latch.a.length) && streamBit s.latch.a p)) ∧
    (s.latch.a.length ≤ 64 → s.latch.s0.toNat < (s.latch.a.length + 7) / 8 →
      ∃ t, exec .write s = .next t ∧ FailsRecoverably s t 2 0) ∧
    (64 < s.latch.a.length → ∃ t, exec .write s = .next t ∧ ViolatesContract s t 3)

/-- 44_serialization.md R126 to R128: where the stream on BIN holds S1 codes end to end within its first min(S0, 8)
bytes, READ leaves exactly their bits in R and the bytes that hold them in R_SCL, whatever follows. -/
def Obligations.ReadGathersTheCodes : Prop :=
  decode 0x000A = .ok .read ∧
  ∀ (s : State) (runs : List Nat), 1 ≤ runs.length → runs.length = s.latch.s1.toNat → 1 ≤ s.latch.s0.toNat →
    CodesFrom (laneBit s.latch.bin) (8 * min s.latch.s0.toNat 8) 0 runs →
    ∃ t, exec .read s = .next t ∧ CompletesOk s t ∧ t.q = Codeword.zero ∧ t.bout = zeroLanes ∧
      t.r.length = bitsUsed runs ∧ Canonical t.r ∧ (∀ p, p < bitsUsed runs → streamBit t.r p = laneBit s.latch.bin p) ∧
      t.rScl.toNat = (bitsUsed runs + 7) / 8

/-- 44_serialization.md R127, R129: READ fails EMPTY_SOURCE for S0 = 0, then ZERO_COUNT for S1 = 0, and where m < S1
codes are followed by a rest without a flip it fails NO_MARKER, by a code that does not fit it fails OVERRUN. -/
def Obligations.ReadReportsTheFirstFailure : Prop :=
  ∀ s : State,
    (s.latch.s0.toNat = 0 → ∃ t, exec .read s = .next t ∧ FailsRecoverably s t 1 3) ∧
    (1 ≤ s.latch.s0.toNat → s.latch.s1.toNat = 0 → ∃ t, exec .read s = .next t ∧ FailsRecoverably s t 1 4) ∧
    ∀ runs : List Nat, 1 ≤ s.latch.s0.toNat → runs.length < s.latch.s1.toNat →
      CodesFrom (laneBit s.latch.bin) (8 * min s.latch.s0.toNat 8) 0 runs →
      ((∀ j, bitsUsed runs + j < 8 * min s.latch.s0.toNat 8 →
          laneBit s.latch.bin (bitsUsed runs + j) = laneBit s.latch.bin (bitsUsed runs)) →
        ∃ t, exec .read s = .next t ∧ FailsRecoverably s t 1 1) ∧
      (∀ r, 1 ≤ r → bitsUsed runs + r < 8 * min s.latch.s0.toNat 8 →
        8 * min s.latch.s0.toNat 8 < bitsUsed runs + (2 * r + 1) →
        (∀ j, j < r → laneBit s.latch.bin (bitsUsed runs + j) = laneBit s.latch.bin (bitsUsed runs)) →
        laneBit s.latch.bin (bitsUsed runs + r) = (!laneBit s.latch.bin (bitsUsed runs)) →
        ∃ t, exec .read s = .next t ∧ FailsRecoverably s t 1 2)

/-- 44_serialization.md R134: a READ of more codes than L/3, so of 22 or more, always completes MALFORMED, with
NO_MARKER or OVERRUN; with no source bytes at all it is EMPTY_SOURCE (R129). The spec infers the bound from R98 and
R127. -/
def Obligations.ReadOfTooManyCodesFails : Prop :=
  ∀ s : State,
    (1 ≤ s.latch.s0.toNat → 8 * min s.latch.s0.toNat 8 / 3 < s.latch.s1.toNat →
      ∃ t, exec .read s = .next t ∧ (FailsRecoverably s t 1 1 ∨ FailsRecoverably s t 1 2)) ∧
    (1 ≤ s.latch.s0.toNat → 22 ≤ s.latch.s1.toNat →
      ∃ t, exec .read s = .next t ∧ (FailsRecoverably s t 1 1 ∨ FailsRecoverably s t 1 2)) ∧
    (s.latch.s0.toNat = 0 → ∃ t, exec .read s = .next t ∧ FailsRecoverably s t 1 3)

/-! The scanner function. -/

/-- 42_scanner_decoder.md R98: scan is 0 exactly for a window of at most one bit or of equal bits; otherwise it is
odd and between 3 and 2w-1; it reaches 127. The spec infers this from R97. -/
def Obligations.ScanRangeIsOddOrZero : Prop :=
  (∀ (v : CodeVal) (w : Nat), w ≤ 64 →
    (scan v w = 0 ↔ w ≤ 1 ∨ ∀ i j, i < w → j < w → v.getLsbD i = v.getLsbD j) ∧
    (scan v w ≠ 0 → scan v w % 2 = 1 ∧ 3 ≤ scan v w ∧ scan v w ≤ 2 * w - 1 ∧ scan v w ≤ 127)) ∧
  scan 0x0000000000000001 64 = 127 ∧ scan 0xFFFFFFFFFFFFFFFE 64 = 127

/-- 42_scanner_decoder.md R99: scan reads only the window's prefix and marker: values that agree on those bits scan
alike, whatever payload or higher bits they hold; the result can exceed the window. -/
def Obligations.ScanReadsPrefixAndMarkerOnly : Prop :=
  (∀ (v v' : CodeVal) (w : Nat), (∀ i, i < w → v.getLsbD i = v'.getLsbD i) → scan v w = scan v' w) ∧
  (∀ (v v' : CodeVal) (w r : Nat), RunThenMarker v.getLsbD w r →
    (∀ j, j ≤ r → v.getLsbD (w - 1 - j) = v'.getLsbD (w - 1 - j)) → scan v' w = scan v w) ∧
  ∃ (v : CodeVal) (w : Nat), w ≤ 64 ∧ w < scan v w

/-- 42_scanner_decoder.md R102: a complete code placed first in a buffer scans to its own length, whatever follows.
The spec infers this from R97 and R99. -/
def Obligations.ScanOfLeadingCodeIsItsLength : Prop :=
  ∀ c t : Codeword, Canonical c → Canonical t → scan c.val c.length = c.length → c.length ≠ 0 →
    c.length + t.length ≤ 64 → scan (shl c.val t.length ||| t.val) (c.length + t.length) = c.length

/-! Round trips. -/

/-- 41_encoder.md R94: for every value below the unit's ENC_LIMIT (log 8) and either polarity, DEC of ENC's result gives
the value and LEAD of it the polarity; CLEN of it, over its own length, gives its length (R93). The spec infers this
from R91 and R104. -/
def Obligations.EncThenDecRoundTrip : Prop :=
  ∀ (hi : Bool) (s u : State), s.latch.s0.toNat < encLimitValue s.encLimit →
    ∃ t, exec (.enc hi) s = .next t ∧
      (u.latch.a = t.r →
        (∃ d, exec .dec u = .next d ∧ CompletesWithScalar u d s.latch.s0.toNat) ∧
        (∃ d, exec .lead u = .next d ∧ CompletesWithScalar u d (if hi then 1 else 0)) ∧
        (u.latch.s0.toNat = t.r.length →
          ∃ d, exec .clen u = .next d ∧ CompletesWithScalar u d t.r.length))

/-- 42_scanner_decoder.md R106: ENC of DEC's value with LEAD's polarity gives back the complete code, which is thus
the code of exactly one value and polarity. The value is always below the spec's ENC_LIMIT; a unit built with the other
one (log 8) gives the code back where its own admits the value. The spec infers this from R91, R103 and R104. -/
def Obligations.DecThenEncInverse : Prop :=
  ∀ (s : State), CompleteCode s.latch.a →
    ∃ d e, exec .dec s = .next d ∧ exec .lead s = .next e ∧ d.rScl.toNat < 4294967294 ∧
      (∀ u : State, u.latch.s0 = d.rScl → d.rScl.toNat < encLimitValue u.encLimit →
        ∃ t, exec (.enc (e.rScl == 1)) u = .next t ∧ CompletesWithR u t ∧ t.r = canon s.latch.a) ∧
      ∀ (hi : Bool) (u t : State), exec (.enc hi) u = .next t → t.r = canon s.latch.a →
        u.latch.s0 = d.rScl ∧ hi = (e.rScl == 1)

/-- 43_composition.md R117: SPLIT of CAT's result gives the two operands back, when the left one is a complete code.
The spec infers this from R102, R109 and R113. -/
def Obligations.CatThenSplitInverse : Prop :=
  ∀ s u : State, CompleteCode s.latch.a → s.latch.a.length + s.latch.b.length ≤ 64 →
    ∃ t, exec .cat s = .next t ∧
      (u.latch.a = t.r →
        ∃ v, exec .split u = .next v ∧ CompletesOk u v ∧ v.r = canon s.latch.a ∧ v.q = canon s.latch.b ∧
          v.rScl = 0 ∧ v.bout = zeroLanes)

/-- 44_serialization.md R132: WRITE of a concatenation of m ≥ 1 complete codes, then READ of m codes from those
bytes, with any bytes after them, gives the concatenation back and consumes exactly the bytes WRITE emitted. The
spec infers this from R102, R122 and R126 to R128. -/
def Obligations.WriteThenReadRoundTrip : Prop :=
  ∀ (s u : State) (codes : List Codeword), codes ≠ [] → (∀ c, c ∈ codes → CompleteCode c ∧ Canonical c) →
    (codes.map Codeword.length).sum ≤ 64 → s.latch.a = codes.foldr concat Codeword.zero →
    (s.latch.a.length + 7) / 8 ≤ s.latch.s0.toNat →
    ∃ t, exec .write s = .next t ∧ CompletesOk s t ∧ t.rScl.toNat = (s.latch.a.length + 7) / 8 ∧
      ((∀ i : Fin 8, i.val < t.rScl.toNat → u.latch.bin[i] = t.bout[i]) → t.rScl.toNat ≤ u.latch.s0.toNat →
        u.latch.s0.toNat ≤ 8 → u.latch.s1.toNat = codes.length →
        ∃ v, exec .read u = .next v ∧ CompletesOk u v ∧ v.r = s.latch.a ∧ v.rScl = t.rScl ∧
          v.q = Codeword.zero ∧ v.bout = zeroLanes)
end

