-- ==== Sys2Proof/Laws/Codeword.lean ====
section
/-! SUPPORT. Bits and lengths of codewords under the primitive functions, canonicalisation and the length check. -/

namespace Sys2Proof.Laws

open Sys2Proof.Machine Sys2Proof.Safety

@[simp] theorem mask_getLsbD (n i : Nat) : (mask n).getLsbD i = (decide (i < 64) && decide (i < n)) := by
  simp [mask, BitVec.getLsbD_ofNat, Nat.testBit_two_pow_sub_one]

@[simp] theorem shl_getLsbD (v : CodeVal) (n i : Nat) :
    (shl v n).getLsbD i = (decide (i < 64) && !decide (i < n) && v.getLsbD (i - n)) := by
  simp [shl, BitVec.getLsbD_shiftLeft]

@[simp] theorem shr_getLsbD (v : CodeVal) (n i : Nat) : (shr v n).getLsbD i = v.getLsbD (n + i) := by
  simp [shr, BitVec.getLsbD_ushiftRight]

theorem length_lt (c : Codeword) : c.length < 128 := c.len.isLt

@[simp] theorem canon_length (c : Codeword) : (canon c).length = c.length := rfl

@[simp] theorem canon_len (c : Codeword) : (canon c).len = c.len := rfl

@[simp] theorem canon_getLsbD (c : Codeword) (i : Nat) : (canon c).val.getLsbD i = bitAt c i := by
  simp only [canon, bitAt, BitVec.getLsbD_and, mask_getLsbD]
  by_cases h : i < 64
  · rw [decide_eq_true h, Bool.true_and, Bool.and_comm]
  · rw [BitVec.getLsbD_of_ge _ _ (Nat.le_of_not_lt h), Bool.false_and, Bool.and_false]

@[simp] theorem bitAt_canon (c : Codeword) (i : Nat) : bitAt (canon c) i = bitAt c i := by
  by_cases h : i < c.length <;> simp [bitAt, h]

theorem bitAt_of_ge {c : Codeword} {i : Nat} (h : c.length ≤ i) : bitAt c i = false := by
  simp [bitAt, Nat.not_lt.mpr h]

@[simp] theorem ofLen_val (v : CodeVal) (n : Nat) : (Codeword.ofLen v n).val = v := rfl

theorem ofLen_length (v : CodeVal) {n : Nat} (h : n < 128) : (Codeword.ofLen v n).length = n := by
  simp [Codeword.ofLen, Codeword.length, Nat.mod_eq_of_lt h]

/-- The zero invariant, bit by bit. -/
theorem canonical_iff (c : Codeword) :
    Canonical c ↔ c.length ≤ 64 ∧ ∀ i, c.length ≤ i → c.val.getLsbD i = false := by
  refine and_congr_right fun _ => ⟨fun h i hi => ?_, fun h => ?_⟩
  · exact Nat.testBit_lt_two_pow (Nat.lt_of_lt_of_le h (Nat.pow_le_pow_right (by decide) hi))
  · exact Nat.lt_pow_two_of_testBit _ fun i hi => h i hi

theorem bitAt_of_canonical {c : Codeword} (h : Canonical c) (i : Nat) : bitAt c i = c.val.getLsbD i := by
  by_cases hi : i < c.length
  · simp [bitAt, hi]
  · rw [bitAt_of_ge (Nat.le_of_not_lt hi), ((canonical_iff c).1 h).2 i (Nat.le_of_not_lt hi)]

/-- The canonical form of a codeword with a length in range is canonical (R82). -/
theorem canonical_canon {c : Codeword} (h : c.length ≤ 64) : Canonical (canon c) :=
  (canonical_iff _).2 ⟨h, fun i hi => by rw [canon_getLsbD]; exact bitAt_of_ge hi⟩

/-- Codewords of one length with the same bits are the same. -/
theorem codeword_ext {c d : Codeword} (hlen : c.length = d.length) (hbit : ∀ i, c.val.getLsbD i = d.val.getLsbD i) :
    c = d := by
  obtain ⟨cv, cl⟩ := c
  obtain ⟨dv, dl⟩ := d
  have hv : cv = dv := BitVec.eq_of_getLsbD_eq fun i _ => hbit i
  have hl : cl = dl := BitVec.eq_of_toNat_eq hlen
  rw [hv, hl]

/-- A canonical codeword is its own canonical form (R82). -/
theorem canon_of_canonical {c : Codeword} (h : Canonical c) : canon c = c :=
  codeword_ext rfl fun i => by rw [canon_getLsbD, bitAt_of_canonical h]

/-- A result put together with `Codeword.ofLen` is canonical when its length fits and no bit lies above it. -/
theorem canonical_ofLen {v : CodeVal} {n : Nat} (hn : n ≤ 64) (h : ∀ i, n ≤ i → v.getLsbD i = false) :
    Canonical (Codeword.ofLen v n) := by
  have hl : (Codeword.ofLen v n).length = n := ofLen_length v (by omega)
  rw [canonical_iff, hl]
  exact ⟨hn, h⟩

theorem canonical_zero : Canonical Codeword.zero := by decide

theorem lengthOk_iff (c : Codeword) : lengthOk c = true ↔ c.length ≤ 64 := by simp [lengthOk]

/-- What a command that reads A can answer (R81). -/
theorem withA_cases (l : Command) (body : Codeword → Completion) :
    (l.a.length ≤ 64 ∧ withA l body = body (canon l.a)) ∨
    (64 < l.a.length ∧ withA l body = .contract .badLength) := by
  by_cases h : l.a.length ≤ 64
  · exact .inl ⟨h, by simp [withA, lengthOk, h]⟩
  · exact .inr ⟨by omega, by simp [withA, lengthOk, h]⟩

theorem withA_of_le {l : Command} (h : l.a.length ≤ 64) (body : Codeword → Completion) :
    withA l body = body (canon l.a) := by simp [withA, lengthOk, h]

/-- What a command that reads A and B can answer (R81). -/
theorem withAB_cases (l : Command) (body : Codeword → Codeword → Completion) :
    (l.a.length ≤ 64 ∧ l.b.length ≤ 64 ∧ withAB l body = body (canon l.a) (canon l.b)) ∨
    ((64 < l.a.length ∨ 64 < l.b.length) ∧ withAB l body = .contract .badLength) := by
  by_cases ha : l.a.length ≤ 64
  · by_cases hb : l.b.length ≤ 64
    · exact .inl ⟨ha, hb, by simp [withAB, lengthOk, ha, hb]⟩
    · exact .inr ⟨.inr (by omega), by simp [withAB, lengthOk, ha, hb]⟩
  · exact .inr ⟨.inl (by omega), by simp [withAB, lengthOk, ha]⟩

theorem withAB_of_le {l : Command} (ha : l.a.length ≤ 64) (hb : l.b.length ≤ 64)
    (body : Codeword → Codeword → Completion) : withAB l body = body (canon l.a) (canon l.b) := by
  simp [withAB, lengthOk, ha, hb]

/-- A length above 64 on A is BAD_LENGTH, whatever the command computes (R81). -/
theorem withA_of_gt {l : Command} (h : 64 < l.a.length) (body : Codeword → Completion) :
    withA l body = .contract .badLength := by
  rcases withA_cases l body with ⟨h', _⟩ | ⟨_, e⟩
  · omega
  · exact e

/-- A length above 64 on A or B is BAD_LENGTH, whatever the command computes (R81). -/
theorem withAB_of_gt {l : Command} (h : 64 < l.a.length ∨ 64 < l.b.length) (body : Codeword → Codeword → Completion) :
    withAB l body = .contract .badLength := by
  rcases withAB_cases l body with ⟨h1, h2, _⟩ | ⟨_, e⟩
  · omega
  · exact e

/-- EQ's test is equality of the pairs it is given (R83). -/
theorem equalCodewords_iff (a b : Codeword) : equalCodewords a b = true ↔ a = b := by
  obtain ⟨av, al⟩ := a
  obtain ⟨bv, bl⟩ := b
  simp only [equalCodewords, decide_eq_true_eq, Codeword.mk.injEq]
  exact and_comm

end Sys2Proof.Laws
end

