-- ==== Sys2Proof/Laws/Scan.lean ====
section
/-! SUPPORT. What the length scanner can answer, said once over the bits of its window (spec R97). -/

namespace Sys2Proof.Laws

open Sys2Proof.Machine Sys2Proof.Safety

/-- The scan loop from position n: no bit below n differs from p, or the first that does is bit i. -/
theorem scanRun_cases (v : CodeVal) (p : Bool) : ∀ (n r : Nat),
    ((∀ j, j < n → v.getLsbD j = p) ∧ scanRun v p r n = 0) ∨
    (∃ i, i < n ∧ v.getLsbD i = (!p) ∧ (∀ j, i < j → j < n → v.getLsbD j = p) ∧
      scanRun v p r n = 2 * (r + (n - 1 - i)) + 1) := by
  intro n
  induction n with
  | zero => intro r; exact .inl ⟨by omega, rfl⟩
  | succ n ih =>
    intro r
    by_cases hp : v.getLsbD n = p
    · rcases ih (r + 1) with ⟨hall, h0⟩ | ⟨i, hi, hbit, hrun, hval⟩
      · refine .inl ⟨fun j hj => ?_, by simp [scanRun, hp, h0]⟩
        rcases Nat.lt_succ_iff_lt_or_eq.1 hj with h | rfl
        · exact hall j h
        · exact hp
      · refine .inr ⟨i, by omega, hbit, fun j hij hj => ?_, ?_⟩
        · rcases Nat.lt_succ_iff_lt_or_eq.1 hj with h | rfl
          · exact hrun j hij h
          · exact hp
        · simp only [scanRun, hp, if_true, hval]
          omega
    · refine .inr ⟨n, by omega, ?_, fun j h1 h2 => by omega, ?_⟩
      · cases hv : v.getLsbD n <;> cases p <;> simp_all
      · simp [scanRun, hp]

/-- scan answers 0 on a window without a flip and 2r+1 where a run of r bits meets a marker (R97, R98). -/
theorem scan_cases (v : CodeVal) (w : Nat) :
    (NoFlip v.getLsbD w ∧ scan v w = 0) ∨ (∃ r, RunThenMarker v.getLsbD w r ∧ scan v w = 2 * r + 1) := by
  cases w with
  | zero => exact .inl ⟨fun j hj => by omega, rfl⟩
  | succ n =>
    rcases scanRun_cases v (v.getLsbD n) n 1 with ⟨hall, h0⟩ | ⟨i, hi, hbit, hrun, hval⟩
    · refine .inl ⟨fun j hj => ?_, h0⟩
      rcases Nat.eq_zero_or_pos j with rfl | hpos
      · rfl
      · simpa using hall (n - j) (by omega)
    · refine .inr ⟨n - i, ⟨by omega, by omega, fun j hj => ?_, ?_⟩, ?_⟩
      · rcases Nat.eq_zero_or_pos j with rfl | hpos
        · rfl
        · simpa using hrun (n - j) (by omega) (by omega)
      · have h : n + 1 - 1 - (n - i) = i := by omega
        rw [h]
        exact hbit
      · simp only [scan, hval]
        omega

/-- A window has at most one run length before its marker, and none if no bit flips. -/
theorem run_unique {bit : Nat → Bool} {w r r' : Nat} (h : RunThenMarker bit w r) (h' : RunThenMarker bit w r') :
    r = r' := by
  obtain ⟨_, _, hrun, hm⟩ := h
  obtain ⟨_, _, hrun', hm'⟩ := h'
  rcases Nat.lt_trichotomy r r' with hlt | heq | hgt
  · have := hrun' r hlt
    simp_all
  · exact heq
  · have := hrun r' hgt
    simp_all

theorem not_noFlip_of_run {bit : Nat → Bool} {w r : Nat} (h : RunThenMarker bit w r) : ¬ NoFlip bit w := by
  intro hn
  have := hn r h.2.1
  have hm := h.2.2.2
  simp_all

theorem scan_of_run {v : CodeVal} {w r : Nat} (h : RunThenMarker v.getLsbD w r) : scan v w = 2 * r + 1 := by
  rcases scan_cases v w with ⟨hn, _⟩ | ⟨r', hr', hv⟩
  · exact absurd hn (not_noFlip_of_run h)
  · rw [hv, run_unique h hr']

theorem scan_of_noFlip {v : CodeVal} {w : Nat} (h : NoFlip v.getLsbD w) : scan v w = 0 := by
  rcases scan_cases v w with ⟨_, h0⟩ | ⟨r, hr, _⟩
  · exact h0
  · exact absurd h (not_noFlip_of_run hr)

/-- The bits of a canonical form are the bits every command reads (R82). -/
theorem canon_bits (c : Codeword) : (canon c).val.getLsbD = bitAt c := funext (canon_getLsbD c)

theorem run_canon {c : Codeword} {w r : Nat} (h : RunThenMarker (bitAt c) w r) :
    RunThenMarker (canon c).val.getLsbD w r := by
  rw [canon_bits]
  exact h

theorem noFlip_canon {c : Codeword} {w : Nat} (h : NoFlip (bitAt c) w) : NoFlip (canon c).val.getLsbD w := by
  rw [canon_bits]
  exact h

theorem isCode_iff (c : Codeword) :
    isCode c = true ↔ c.length % 2 = 1 ∧ c.length > 2 ∧ scan c.val c.length = c.length := decide_eq_true_iff

end Sys2Proof.Laws
end

