-- ==== Sys2Proof/Laws/Composition.lean ====
section
/-! SUPPORT. Lengths, bits and canonicity of concat, split and align (spec 43_composition.md). -/

namespace Sys2Proof.Laws

open Sys2Proof.Machine Sys2Proof.Safety

theorem concat_length {a b : Codeword} (h : a.length + b.length ≤ 64) :
    (concat a b).length = a.length + b.length := ofLen_length _ (by omega)

theorem concat_getLsbD (a b : Codeword) (j : Nat) :
    (concat a b).val.getLsbD j =
      ((decide (j < 64) && !decide (j < b.length) && a.val.getLsbD (j - b.length)) || b.val.getLsbD j) := by
  simp only [concat, ofLen_val, BitVec.getLsbD_or, shl_getLsbD]

/-- Below b's length the bits of concat are b's, above it a's (R109). -/
theorem concat_bits {a b : Codeword} (ha : Canonical a) (hb : Canonical b) (h : a.length + b.length ≤ 64) (j : Nat) :
    (concat a b).val.getLsbD j =
      if j < b.length then b.val.getLsbD j else a.val.getLsbD (j - b.length) := by
  rw [concat_getLsbD]
  by_cases hj : j < b.length
  · simp [hj]
  · rw [((canonical_iff b).1 hb).2 j (Nat.le_of_not_lt hj)]
    by_cases h64 : j < 64
    · simp [hj, h64]
    · rw [((canonical_iff a).1 ha).2 (j - b.length) (by omega)]
      simp [hj]

theorem concat_canonical {a b : Codeword} (ha : Canonical a) (hb : Canonical b) (h : a.length + b.length ≤ 64) :
    Canonical (concat a b) := by
  rw [canonical_iff, concat_length h]
  refine ⟨h, fun i hi => ?_⟩
  rw [concat_bits ha hb h, if_neg (by omega)]
  exact ((canonical_iff a).1 ha).2 _ (by omega)

theorem padOf_spec (n : Nat) : padOf n ≤ 7 ∧ (n + padOf n) % 8 = 0 ∧ n + padOf n = 8 * ((n + 7) / 8) := by
  unfold padOf
  omega

theorem align_length {c : Codeword} (h : c.length ≤ 64) : (align c).length = 8 * ((c.length + 7) / 8) := by
  obtain ⟨_, _, h3⟩ := padOf_spec c.length
  rw [← h3]
  exact ofLen_length _ (by omega)

theorem align_getLsbD (c : Codeword) (j : Nat) :
    (align c).val.getLsbD j =
      (decide (j < 64) && !decide (j < padOf c.length) && c.val.getLsbD (j - padOf c.length)) := by
  simp only [align, ofLen_val, shl_getLsbD]

theorem align_canonical {c : Codeword} (h : Canonical c) : Canonical (align c) := by
  have hl := h.1
  obtain ⟨_, _, h3⟩ := padOf_spec c.length
  rw [canonical_iff, align_length hl]
  refine ⟨by omega, fun i hi => ?_⟩
  rw [align_getLsbD, ((canonical_iff c).1 h).2 (i - padOf c.length) (by omega), Bool.and_false]

theorem splitAt_fst_length {c : Codeword} {n : Nat} (h : n ≤ 64) : (splitAt c n).1.length = n :=
  ofLen_length _ (by omega)

theorem splitAt_snd_length {c : Codeword} {n : Nat} (h : c.length ≤ 64) : (splitAt c n).2.length = c.length - n :=
  ofLen_length _ (by omega)

theorem splitAt_fst_getLsbD (c : Codeword) (n j : Nat) :
    (splitAt c n).1.val.getLsbD j = c.val.getLsbD (c.length - n + j) := by
  simp only [splitAt, ofLen_val, shr_getLsbD]

theorem splitAt_snd_getLsbD (c : Codeword) (n j : Nat) :
    (splitAt c n).2.val.getLsbD j = (c.val.getLsbD j && (decide (j < 64) && decide (j < c.length - n))) := by
  simp only [splitAt, ofLen_val, BitVec.getLsbD_and, mask_getLsbD]

/-- Both parts of a split are canonical (R116). -/
theorem splitAt_canonical {c : Codeword} {n : Nat} (hc : Canonical c) (hn : n ≤ c.length) :
    Canonical (splitAt c n).1 ∧ Canonical (splitAt c n).2 := by
  have hl := hc.1
  constructor
  · rw [canonical_iff, splitAt_fst_length (by omega)]
    refine ⟨by omega, fun i hi => ?_⟩
    rw [splitAt_fst_getLsbD]
    exact ((canonical_iff c).1 hc).2 _ (by omega)
  · rw [canonical_iff, splitAt_snd_length hl]
    refine ⟨by omega, fun i hi => ?_⟩
    rw [splitAt_snd_getLsbD, decide_eq_false (Nat.not_lt.2 hi), Bool.and_false, Bool.and_false]

end Sys2Proof.Laws
end

