-- ==== Sys2Proof/Laws/Roms.lean ====
section
/-! SUPPORT. The closed form of CCT, the bits of REV, and the encoder's width search. -/

namespace Sys2Proof.Laws

open Sys2Proof.Machine

/-- CCT[k] = 2^(k+1) - 2 (spec 10_state.md R21). -/
theorem cct_eq {k : Nat} (h : k ≤ 31) : cct k = 2 ^ (k + 1) - 2 := by
  have all : ∀ k : Fin 32, cct k.val = 2 ^ (k.val + 1) - 2 := by decide
  exact all ⟨k, by omega⟩

theorem encLimitValue_cctK : encLimitValue .cctK = 4294967294 := by decide

theorem encLimitValue_cctKMinusOne : encLimitValue .cctKMinusOne = 4294967293 := by decide

/-- Under either reading every accepted value has a prefix width. -/
theorem lt_cct_of_lt_encLimitValue {limit : Config.EncLimit} {v : Nat} (h : v < encLimitValue limit) :
    v < cct Config.K := by
  cases limit
  · exact h
  · exact Nat.lt_of_lt_of_le h (Nat.sub_le _ _)

/-- REV as a permutation of bit positions, all entries at once. -/
theorem rev_bits_all : ∀ b : Byte, ∀ i : Fin 8, (rev b).getLsbD i.val = b.getLsbD (7 - i.val) := by decide +kernel

theorem rev_getLsbD (b : Byte) {i : Nat} (h : i < 8) : (rev b).getLsbD i = b.getLsbD (7 - i) :=
  rev_bits_all b ⟨i, h⟩

/-- The width search answers the first entry above v, if there is one. -/
theorem leastWidthFrom_spec (v : Nat) : ∀ (fuel start : Nat), (∃ k, start ≤ k ∧ k < start + fuel ∧ v < cct k) →
    start ≤ leastWidthFrom v start fuel ∧ leastWidthFrom v start fuel < start + fuel ∧
    v < cct (leastWidthFrom v start fuel) ∧ ∀ j, start ≤ j → j < leastWidthFrom v start fuel → cct j ≤ v := by
  intro fuel
  induction fuel with
  | zero => rintro start ⟨k, _, _, _⟩; omega
  | succ fuel ih =>
    rintro start ⟨k, hk1, hk2, hv⟩
    by_cases h : v < cct start
    · simp only [leastWidthFrom, h, if_true]
      exact ⟨by omega, by omega, trivial, fun j _ _ => by omega⟩
    · have hne : k ≠ start := by rintro rfl; exact h hv
      obtain ⟨h1, h2, h3, h4⟩ := ih (start + 1) ⟨k, by omega, by omega, hv⟩
      simp only [leastWidthFrom, h, if_false]
      refine ⟨by omega, by omega, h3, fun j hj1 hj2 => ?_⟩
      rcases Nat.eq_or_lt_of_le hj1 with rfl | hlt
      · omega
      · exact h4 j hlt hj2

/-- The width the encoder picks for a value below the limit (spec 41_encoder.md R91). -/
theorem prefixWidth_spec {v : Nat} (h : v < cct Config.K) :
    1 ≤ prefixWidth v ∧ prefixWidth v ≤ 31 ∧ cct (prefixWidth v - 1) ≤ v ∧ v < cct (prefixWidth v) := by
  have hk : prefixWidth v = leastWidthFrom v 1 31 := rfl
  obtain ⟨h1, h2, h3, h4⟩ := leastWidthFrom_spec v 31 1 ⟨31, by omega, by omega, h⟩
  rw [← hk] at h1 h2 h3 h4
  refine ⟨h1, by omega, ?_, h3⟩
  rcases Nat.eq_or_lt_of_le h1 with h1 | h1
  · rw [← h1]
    exact Nat.zero_le _
  · exact h4 _ (by omega) (by omega)

end Sys2Proof.Laws
end

