-- ==== Sys2Proof/Laws/Encoder.lean ====
section
/-! SUPPORT. The bits of an encoded value (spec 41_encoder.md R91, 30_encoding.md R71). -/

namespace Sys2Proof.Laws

open Sys2Proof.Machine Sys2Proof.Safety

/-- The offset of an encodable value within its width: below 2^k, and added to 2^k - 2 it gives the value back. -/
theorem offset_spec {v : Nat} (h : v < cct Config.K) :
    v - cct (prefixWidth v - 1) < 2 ^ prefixWidth v ∧
    v = (2 ^ prefixWidth v - 2) + (v - cct (prefixWidth v - 1)) := by
  obtain ⟨h1, h31, hlo, hhi⟩ := prefixWidth_spec h
  have e1 : cct (prefixWidth v - 1) = 2 ^ prefixWidth v - 2 := by
    rw [cct_eq (by omega)]
    congr 2
    omega
  have e2 : cct (prefixWidth v) = 2 ^ prefixWidth v * 2 - 2 := by rw [cct_eq h31, Nat.pow_succ]
  have hp : 2 ≤ 2 ^ prefixWidth v := by
    calc 2 = 2 ^ 1 := rfl
      _ ≤ 2 ^ prefixWidth v := Nat.pow_le_pow_right (by decide) h1
  omega

theorem enc_length {v : Nat} (hi : Bool) (h : v < cct Config.K) : (enc v hi).length = 2 * prefixWidth v + 1 := by
  obtain ⟨h1, h31, _, _⟩ := prefixWidth_spec h
  exact ofLen_length _ (by omega)

/-- Every bit of a code: payload, marker, prefix, and zero above. -/
theorem enc_getLsbD {v : Nat} (hi : Bool) (h : v < cct Config.K) (j : Nat) :
    (enc v hi).val.getLsbD j =
      if j < prefixWidth v then (v - cct (prefixWidth v - 1)).testBit j
      else if j = prefixWidth v then !hi
      else if j ≤ 2 * prefixWidth v then hi else false := by
  obtain ⟨h1, h31, _, _⟩ := prefixWidth_spec h
  obtain ⟨hoff, _⟩ := offset_spec h
  have hmarker : ∀ i, ((if hi then 0 else 1 : CodeVal)).getLsbD i = (decide (i = 0) && !hi) := by
    intro i
    cases hi <;> simp [BitVec.getLsbD_one]
  have hprefix : ∀ i, (if hi then mask (prefixWidth v) else 0 : CodeVal).getLsbD i =
      (decide (i < prefixWidth v) && hi) := by
    intro i
    cases hi
    · simp
    · by_cases hi' : i < prefixWidth v
      · have : i < 64 := by omega
        simp only [if_true, mask_getLsbD, hi', this, decide_true, Bool.and_self]
      · simp only [if_true, mask_getLsbD, hi', decide_false, Bool.and_false, Bool.false_and]
  have hpayload : ∀ i, prefixWidth v ≤ i → (v - cct (prefixWidth v - 1)).testBit i = false := fun i hi' =>
    Nat.testBit_lt_two_pow (Nat.lt_of_lt_of_le hoff (Nat.pow_le_pow_right (by decide) hi'))
  simp only [enc, ofLen_val, BitVec.getLsbD_or, shl_getLsbD, hmarker, hprefix, BitVec.getLsbD_ofNat]
  generalize prefixWidth v = k at *
  generalize v - cct (k - 1) = offset at *
  by_cases hj : j < k
  · have a1 : j < k + 1 := by omega
    have a2 : j < 64 := by omega
    simp [hj, a1, a2]
  · rcases Nat.eq_or_lt_of_le (Nat.le_of_not_lt hj) with rfl | hgt
    · have a2 : k < 64 := by omega
      simp [a2, hpayload k (Nat.le_refl k)]
    · have a1 : ¬ j < k + 1 := by omega
      have a3 : j ≠ k := by omega
      have a4 : j - k ≠ 0 := by omega
      have a5 : (j - (k + 1) < k) ↔ j ≤ 2 * k := by omega
      simp only [hj, a1, a3, a4, a5, hpayload j (by omega), if_false, decide_false, Bool.false_and, Bool.and_false,
        Bool.or_false, Bool.not_false, Bool.and_true]
      by_cases a6 : j ≤ 2 * k
      · have a7 : j < 64 := by omega
        simp [a6, a7]
      · simp [a6]

theorem enc_canonical {v : Nat} (hi : Bool) (h : v < cct Config.K) : Canonical (enc v hi) := by
  obtain ⟨h1, h31, _, _⟩ := prefixWidth_spec h
  rw [canonical_iff, enc_length hi h]
  refine ⟨by omega, fun i hge => ?_⟩
  have a1 : ¬ i < prefixWidth v := by omega
  have a2 : i ≠ prefixWidth v := by omega
  have a3 : ¬ i ≤ 2 * prefixWidth v := by omega
  rw [enc_getLsbD hi h, if_neg a1, if_neg a2, if_neg a3]

/-- The low k bits of a value, as a number, bit by bit. -/
theorem mod_two_pow_eq_of_bits {a b k : Nat} (hb : b < 2 ^ k) (h : ∀ j, j < k → a.testBit j = b.testBit j) :
    a % 2 ^ k = b := by
  apply Nat.eq_of_testBit_eq
  intro j
  by_cases hj : j < k
  · simp [Nat.testBit_mod_two_pow, hj, h j hj]
  · rw [Nat.testBit_lt_two_pow (Nat.lt_of_lt_of_le hb (Nat.pow_le_pow_right (by decide) (Nat.le_of_not_lt hj)))]
    simp [Nat.testBit_mod_two_pow, hj]

/-- An encoded value is laid out as R71 says. -/
theorem enc_codeLayout {v : Nat} (hi : Bool) (h : v < cct Config.K) :
    CodeLayout (enc v hi) (prefixWidth v) hi (v - cct (prefixWidth v - 1)) := by
  refine ⟨enc_length hi h, fun j h1 h2 => ?_, ?_, ?_⟩
  · have a1 : ¬ j < prefixWidth v := by omega
    have a2 : j ≠ prefixWidth v := by omega
    rw [bitAt_of_canonical (enc_canonical hi h), enc_getLsbD hi h, if_neg a1, if_neg a2, if_pos h2]
  · rw [bitAt_of_canonical (enc_canonical hi h), enc_getLsbD hi h, if_neg (Nat.lt_irrefl _), if_pos rfl]
  · refine mod_two_pow_eq_of_bits (offset_spec h).1 fun j hj => ?_
    have := enc_getLsbD hi h j
    rwa [if_pos hj] at this

/-- A code layout is a run of k prefix bits that meets the marker. -/
theorem run_of_codeLayout {c : Codeword} {k : Nat} {hi : Bool} {offset : Nat} (h1 : 1 ≤ k)
    (h : CodeLayout c k hi offset) : RunThenMarker (bitAt c) c.length k := by
  obtain ⟨hlen, hprefix, hmarker, _⟩ := h
  have htop : bitAt c (c.length - 1) = hi := hprefix _ (by omega) (by omega)
  refine ⟨h1, by omega, fun j hj => ?_, ?_⟩
  · rw [htop]
    exact hprefix _ (by omega) (by omega)
  · have e : c.length - 1 - k = k := by omega
    rw [e, htop, hmarker]

end Sys2Proof.Laws
end

