-- ==== Sys2Proof/Laws/Flags.lean ====
section
/-! SUPPORT. The fields of STATUS after each event that writes it. -/

namespace Sys2Proof.Laws

open Sys2Proof.Machine

/-- Every field of STATUS reads back what `packStatus` put there, and the reserved bits read 0: over all field values. -/
theorem packStatus_fields : ∀ (code : BitVec 3) (cause fcause : BitVec 4) (fault busy : Bool),
    statusCode (packStatus code cause fault busy fcause) = code ∧
    statusCause (packStatus code cause fault busy fcause) = cause ∧
    statusFault (packStatus code cause fault busy fcause) = fault ∧
    statusBusy (packStatus code cause fault busy fcause) = busy ∧
    statusFcause (packStatus code cause fault busy fcause) = fcause ∧
    statusReservedZero (packStatus code cause fault busy fcause) = true := by
  decide +kernel

section Pack

variable (code : BitVec 3) (cause fcause : BitVec 4) (fault busy : Bool)

@[simp] theorem statusCode_packStatus : statusCode (packStatus code cause fault busy fcause) = code :=
  (packStatus_fields code cause fcause fault busy).1

@[simp] theorem statusCause_packStatus : statusCause (packStatus code cause fault busy fcause) = cause :=
  (packStatus_fields code cause fcause fault busy).2.1

@[simp] theorem statusFault_packStatus : statusFault (packStatus code cause fault busy fcause) = fault :=
  (packStatus_fields code cause fcause fault busy).2.2.1

@[simp] theorem statusBusy_packStatus : statusBusy (packStatus code cause fault busy fcause) = busy :=
  (packStatus_fields code cause fcause fault busy).2.2.2.1

@[simp] theorem statusFcause_packStatus : statusFcause (packStatus code cause fault busy fcause) = fcause :=
  (packStatus_fields code cause fcause fault busy).2.2.2.2.1

@[simp] theorem reservedZero_packStatus : statusReservedZero (packStatus code cause fault busy fcause) = true :=
  (packStatus_fields code cause fcause fault busy).2.2.2.2.2

end Pack

variable (w : BitVec 32) (c : Completion)

@[simp] theorem statusCode_statusAfter : statusCode (statusAfter w c) = completionCode c := by simp [statusAfter]
@[simp] theorem statusCause_statusAfter : statusCause (statusAfter w c) = completionCause c := by simp [statusAfter]
@[simp] theorem statusFault_statusAfter : statusFault (statusAfter w c) = faultAfter w c := by simp [statusAfter]
@[simp] theorem statusFcause_statusAfter : statusFcause (statusAfter w c) = fcauseAfter w c := by simp [statusAfter]
@[simp] theorem statusBusy_statusAfter : statusBusy (statusAfter w c) = false := by simp [statusAfter]
@[simp] theorem reservedZero_statusAfter : statusReservedZero (statusAfter w c) = true := by simp [statusAfter]

@[simp] theorem statusCode_statusAccepted : statusCode (statusAccepted w) = statusCode w := by simp [statusAccepted]
@[simp] theorem statusCause_statusAccepted : statusCause (statusAccepted w) = statusCause w := by simp [statusAccepted]
@[simp] theorem statusFault_statusAccepted : statusFault (statusAccepted w) = statusFault w := by simp [statusAccepted]
@[simp] theorem statusFcause_statusAccepted : statusFcause (statusAccepted w) = statusFcause w := by simp [statusAccepted]
@[simp] theorem statusBusy_statusAccepted : statusBusy (statusAccepted w) = true := by simp [statusAccepted]
@[simp] theorem reservedZero_statusAccepted : statusReservedZero (statusAccepted w) = true := by simp [statusAccepted]

@[simp] theorem statusCode_zero : statusCode 0#32 = 0 := by decide
@[simp] theorem statusCause_zero : statusCause 0#32 = 0 := by decide
@[simp] theorem statusFault_zero : statusFault 0#32 = false := by decide
@[simp] theorem statusFcause_zero : statusFcause 0#32 = 0 := by decide
@[simp] theorem statusBusy_zero : statusBusy 0#32 = false := by decide
@[simp] theorem reservedZero_zero : statusReservedZero 0#32 = true := by decide

end Sys2Proof.Laws
end

