-- ==== Sys2Proof/Laws/State.lean ====
section
/-! SUPPORT. What each operation leaves in each field of State, and the reset values field by field. -/

namespace Sys2Proof.Laws

open Sys2Proof.Machine

@[simp] theorem complete_r (s : State) (c : Completion) : (complete s c).r = (resultsOf c).r := rfl
@[simp] theorem complete_q (s : State) (c : Completion) : (complete s c).q = (resultsOf c).q := rfl
@[simp] theorem complete_rScl (s : State) (c : Completion) : (complete s c).rScl = (resultsOf c).rScl := rfl
@[simp] theorem complete_bout (s : State) (c : Completion) : (complete s c).bout = (resultsOf c).bout := rfl
@[simp] theorem complete_status (s : State) (c : Completion) : (complete s c).status = statusAfter s.status c := rfl
@[simp] theorem complete_latch (s : State) (c : Completion) : (complete s c).latch = Command.empty := rfl
@[simp] theorem complete_ports (s : State) (c : Completion) : (complete s c).ports = s.ports := rfl
@[simp] theorem complete_wait (s : State) (c : Completion) : (complete s c).wait = 0 := rfl
@[simp] theorem complete_extraCycles (s : State) (c : Completion) : (complete s c).extraCycles = s.extraCycles := rfl
@[simp] theorem complete_encLimit (s : State) (c : Completion) : (complete s c).encLimit = s.encLimit := rfl

@[simp] theorem accept_r (s : State) : (accept s).r = s.r := rfl
@[simp] theorem accept_q (s : State) : (accept s).q = s.q := rfl
@[simp] theorem accept_rScl (s : State) : (accept s).rScl = s.rScl := rfl
@[simp] theorem accept_bout (s : State) : (accept s).bout = s.bout := rfl
@[simp] theorem accept_status (s : State) : (accept s).status = statusAccepted s.status := rfl
@[simp] theorem accept_latch (s : State) : (accept s).latch = s.ports.command := rfl
@[simp] theorem accept_ports (s : State) : (accept s).ports = s.ports := rfl
@[simp] theorem accept_wait (s : State) : (accept s).wait = s.extraCycles.headD 0 := rfl
@[simp] theorem accept_extraCycles (s : State) : (accept s).extraCycles = s.extraCycles.tail := rfl
@[simp] theorem accept_encLimit (s : State) : (accept s).encLimit = s.encLimit := rfl

@[simp] theorem waitEdge_r (s : State) (n : Nat) : (waitEdge s n).r = s.r := rfl
@[simp] theorem waitEdge_q (s : State) (n : Nat) : (waitEdge s n).q = s.q := rfl
@[simp] theorem waitEdge_rScl (s : State) (n : Nat) : (waitEdge s n).rScl = s.rScl := rfl
@[simp] theorem waitEdge_bout (s : State) (n : Nat) : (waitEdge s n).bout = s.bout := rfl
@[simp] theorem waitEdge_status (s : State) (n : Nat) : (waitEdge s n).status = s.status := rfl
@[simp] theorem waitEdge_latch (s : State) (n : Nat) : (waitEdge s n).latch = s.latch := rfl
@[simp] theorem waitEdge_ports (s : State) (n : Nat) : (waitEdge s n).ports = s.ports := rfl
@[simp] theorem waitEdge_wait (s : State) (n : Nat) : (waitEdge s n).wait = n := rfl
@[simp] theorem waitEdge_extraCycles (s : State) (n : Nat) : (waitEdge s n).extraCycles = s.extraCycles := rfl
@[simp] theorem waitEdge_encLimit (s : State) (n : Nat) : (waitEdge s n).encLimit = s.encLimit := rfl

@[simp] theorem resetUnit_r (s : State) : (resetUnit s).r = Codeword.zero := rfl
@[simp] theorem resetUnit_q (s : State) : (resetUnit s).q = Codeword.zero := rfl
@[simp] theorem resetUnit_rScl (s : State) : (resetUnit s).rScl = 0 := rfl
@[simp] theorem resetUnit_bout (s : State) : (resetUnit s).bout = zeroLanes := rfl
@[simp] theorem resetUnit_status (s : State) : (resetUnit s).status = 0 := rfl
@[simp] theorem resetUnit_latch (s : State) : (resetUnit s).latch = Command.empty := rfl
@[simp] theorem resetUnit_ports (s : State) : (resetUnit s).ports = s.ports := rfl
@[simp] theorem resetUnit_wait (s : State) : (resetUnit s).wait = 0 := rfl
@[simp] theorem resetUnit_extraCycles (s : State) : (resetUnit s).extraCycles = s.extraCycles := rfl
@[simp] theorem resetUnit_encLimit (s : State) : (resetUnit s).encLimit = s.encLimit := rfl

@[simp] theorem placeInFlight_r (s : State) (c : Command) : (placeInFlight s c).r = s.r := rfl
@[simp] theorem placeInFlight_q (s : State) (c : Command) : (placeInFlight s c).q = s.q := rfl
@[simp] theorem placeInFlight_rScl (s : State) (c : Command) : (placeInFlight s c).rScl = s.rScl := rfl
@[simp] theorem placeInFlight_bout (s : State) (c : Command) : (placeInFlight s c).bout = s.bout := rfl
@[simp] theorem placeInFlight_status (s : State) (c : Command) : (placeInFlight s c).status = statusAccepted s.status := rfl
@[simp] theorem placeInFlight_latch (s : State) (c : Command) : (placeInFlight s c).latch = c := rfl
@[simp] theorem placeInFlight_ports (s : State) (c : Command) : (placeInFlight s c).ports = { s.ports with rst := false } := rfl
@[simp] theorem placeInFlight_wait (s : State) (c : Command) : (placeInFlight s c).wait = 0 := rfl
@[simp] theorem placeInFlight_extraCycles (s : State) (c : Command) : (placeInFlight s c).extraCycles = s.extraCycles := rfl
@[simp] theorem placeInFlight_encLimit (s : State) (c : Command) : (placeInFlight s c).encLimit = s.encLimit := rfl

@[simp] theorem reset_r : State.reset.r = Codeword.zero := rfl
@[simp] theorem reset_q : State.reset.q = Codeword.zero := rfl
@[simp] theorem reset_rScl : State.reset.rScl = 0 := rfl
@[simp] theorem reset_bout : State.reset.bout = zeroLanes := rfl
@[simp] theorem reset_status : State.reset.status = 0 := rfl
@[simp] theorem reset_latch : State.reset.latch = Command.empty := rfl
@[simp] theorem reset_wait : State.reset.wait = 0 := rfl
@[simp] theorem reset_extraCycles : State.reset.extraCycles = [] := rfl
@[simp] theorem reset_ports : State.reset.ports = ⟨Command.empty, false, false⟩ := rfl
@[simp] theorem reset_encLimit : State.reset.encLimit = .cctK := rfl

@[simp] theorem resultsOf_ok (res : Results) : resultsOf (.ok res) = res := rfl
@[simp] theorem resultsOf_malformed (c : MalformedCause) : resultsOf (.malformed c) = Results.zero := rfl
@[simp] theorem resultsOf_nospace : resultsOf .nospace = Results.zero := rfl
@[simp] theorem resultsOf_contract (c : ContractCause) : resultsOf (.contract c) = Results.zero := rfl
@[simp] theorem resultsOf_rejected : resultsOf .rejected = Results.zero := rfl

@[simp] theorem results_zero_r : Results.zero.r = Codeword.zero := rfl
@[simp] theorem results_zero_q : Results.zero.q = Codeword.zero := rfl
@[simp] theorem results_zero_rScl : Results.zero.rScl = 0 := rfl
@[simp] theorem results_zero_bout : Results.zero.bout = zeroLanes := rfl

@[simp] theorem codeword_zero_val : Codeword.zero.val = 0 := rfl
@[simp] theorem codeword_zero_len : Codeword.zero.len = 0 := rfl
@[simp] theorem codeword_zero_length : Codeword.zero.length = 0 := rfl

end Sys2Proof.Laws
end

