-- ==== Sys2Proof/Laws/Ops.lean ====
section
/-! SUPPORT. What the shared operations can do: completing a command, a command's meaning, an edge. -/

namespace Sys2Proof.Laws

open Sys2Proof.Machine Sys2Proof.Safety

/-- Every completion leaves the ports and the coming latencies, and clears BUSY (R138). -/
theorem complete_frame (s : State) (c : Completion) : CompletionFrame s (complete s c) := by simp [CompletionFrame]

theorem complete_ok (s : State) (res : Results) : CompletesOk s (complete s (.ok res)) := by
  simp [CompletesOk, CompletionFrame, completionCode, completionCause, faultAfter, fcauseAfter]

theorem complete_malformed (s : State) (c : MalformedCause) :
    FailsRecoverably s (complete s (.malformed c)) 1 (malformedCauseBits c) := by
  simp [FailsRecoverably, ResultsZero, CompletionFrame, completionCode, completionCause, faultAfter, fcauseAfter]

theorem complete_nospace (s : State) : FailsRecoverably s (complete s .nospace) 2 0 := by
  simp [FailsRecoverably, ResultsZero, CompletionFrame, completionCode, completionCause, faultAfter, fcauseAfter]

theorem complete_rejected (s : State) : FailsRecoverably s (complete s .rejected) 4 0 := by
  simp [FailsRecoverably, ResultsZero, CompletionFrame, completionCode, completionCause, faultAfter, fcauseAfter]

theorem complete_contract (s : State) (c : ContractCause) :
    ViolatesContract s (complete s (.contract c)) (contractCauseBits c) := by
  simp [ViolatesContract, ResultsZero, CompletionFrame, completionCode, completionCause, faultAfter, fcauseAfter]

/-- The completion of each command, as a function of the parameter ENC_LIMIT and the latch alone. -/
def commandResult (limit : Config.EncLimit) : Instr → Command → Completion
  | .enc hi, l => encResult limit hi l
  | .clen, l => clenResult l
  | .dec, l => decResult l
  | .lead, l => leadResult l
  | .eq, l => eqResult l
  | .cat, l => catResult l
  | .split, l => splitResult l
  | .align, l => alignResult l
  | .write, l => writeResult l
  | .read, l => readResult l

/-- exec completes the command in the latch, whatever it is. -/
theorem exec_eq (i : Instr) (s : State) : exec i s = .next (complete s (commandResult s.encLimit i s.latch)) := by
  cases i <;> rfl

theorem exec_next {i : Instr} {s t : State} (h : exec i s = .next t) : t = complete s (commandResult s.encLimit i s.latch) := by
  rw [exec_eq] at h
  exact (Host.Outcome.next.inj h).symm

/-- The completion edge completes the command in flight with one of its outcomes (R143, R146, 30_encoding.md R68). -/
theorem completionEdge_cases (s : State) :
    (statusFault s.status = true ∧ completionEdge s = .next (complete s .rejected)) ∨
    (∃ i, statusFault s.status = false ∧ decode s.latch.cmd = .ok i ∧ completionEdge s = exec i s) ∨
    (∃ e, statusFault s.status = false ∧ decode s.latch.cmd = .error e ∧
      completionEdge s = .next (complete s (.contract (illegalCause e)))) := by
  unfold completionEdge
  cases hf : statusFault s.status
  · cases hd : decode s.latch.cmd with
    | ok i => exact .inr (.inl ⟨i, rfl, rfl, by simp⟩)
    | error e => exact .inr (.inr ⟨e, rfl, rfl, by simp [rejectIllegal, raiseContract]⟩)
  · exact .inl ⟨rfl, by simp [reject]⟩

/-- Everything one step can do: one of the five kinds of edge (R161, R167 to R169). -/
theorem step_cases (s : State) :
    (s.ports.rst = true ∧ step s = .next (resetUnit s)) ∨
    (s.ports.rst = false ∧ statusBusy s.status = true ∧ ∃ n, s.wait = n + 1 ∧ step s = .next (waitEdge s n)) ∨
    (s.ports.rst = false ∧ statusBusy s.status = true ∧ s.wait = 0 ∧ step s = completionEdge s) ∨
    (s.ports.rst = false ∧ statusBusy s.status = false ∧ s.ports.cmdValid = true ∧ step s = .next (accept s)) ∨
    (s.ports.rst = false ∧ statusBusy s.status = false ∧ s.ports.cmdValid = false ∧ step s = .next s) := by
  unfold step clockEdge
  cases hr : s.ports.rst
  · cases hb : statusBusy s.status
    · cases hv : s.ports.cmdValid
      · exact .inr (.inr (.inr (.inr ⟨rfl, rfl, rfl, by simp⟩)))
      · exact .inr (.inr (.inr (.inl ⟨rfl, rfl, rfl, by simp⟩)))
    · cases hw : s.wait with
      | zero => exact .inr (.inr (.inl ⟨rfl, rfl, rfl, by simp⟩))
      | succ n => exact .inr (.inl ⟨rfl, rfl, n, rfl, by simp⟩)
  · exact .inl ⟨rfl, by simp⟩

/-- At the completion edge of a command a step is that edge. -/
theorem step_atCompletion {s : State} (h : AtCompletion s) : step s = completionEdge s := by
  obtain ⟨hr, hb, hw⟩ := h
  simp [step, clockEdge, hr, hb, hw]

/-- A command whose outcome is a contract violation completes with it (R141). -/
theorem exec_contract {i : Instr} {s : State} {c : ContractCause} (h : commandResult s.encLimit i s.latch = .contract c) :
    ∃ t, exec i s = .next t ∧ ViolatesContract s t (contractCauseBits c) :=
  ⟨_, exec_eq _ _, by rw [h]; exact complete_contract s c⟩

/-- A command whose outcome is malformed input completes with it (R142). -/
theorem exec_malformed {i : Instr} {s : State} {c : MalformedCause} (h : commandResult s.encLimit i s.latch = .malformed c) :
    ∃ t, exec i s = .next t ∧ FailsRecoverably s t 1 (malformedCauseBits c) :=
  ⟨_, exec_eq _ _, by rw [h]; exact complete_malformed s c⟩

/-- A command whose only result is a codeword completes OK with it in R (R39). -/
theorem exec_okR {i : Instr} {s : State} {c : Codeword} (h : commandResult s.encLimit i s.latch = okR c) :
    ∃ t, exec i s = .next t ∧ CompletesWithR s t ∧ t.r = c :=
  ⟨_, exec_eq _ _, by rw [h]; exact ⟨⟨complete_ok _ _, rfl, rfl, rfl⟩, rfl⟩⟩

/-- A command whose only result is a scalar completes OK with it in R_SCL (R39). -/
theorem exec_okScalar {i : Instr} {s : State} {n : Nat} (hn : n < 2 ^ 32) (h : commandResult s.encLimit i s.latch = okScalar n) :
    ∃ t, exec i s = .next t ∧ CompletesWithScalar s t n :=
  ⟨_, exec_eq _ _, by
    rw [h]
    refine ⟨complete_ok _ _, ?_, rfl, rfl, rfl⟩
    simp only [complete_rScl, resultsOf_ok, okScalar, BitVec.toNat_ofNat]
    exact Nat.mod_eq_of_lt hn⟩

end Sys2Proof.Laws
end

