-- ==== Sys2Proof/Laws/PerInstr.lean ====
section
/-! SUPPORT. Per-command facts about the syntax, one lemma per constructor of Instr. -/

namespace Sys2Proof.Laws.ReservedBitsZero

/-- The command's word sets no reserved bit: CMD[15:5] is 0, and so is CMD[4] but for ENC, where it is the polarity
(spec 30_encoding.md R63, R66). -/
def Statement (i : Instr) : Prop :=
  (encode i).extractLsb' 5 11 = 0 ∧ ((encode i).getLsbD 4 = true ↔ i = .enc true)

theorem enc (hi : Bool) : Statement (.enc hi) := by cases hi <;> (unfold Statement; decide)
theorem clen : Statement .clen := by unfold Statement; decide
theorem dec : Statement .dec := by unfold Statement; decide
theorem lead : Statement .lead := by unfold Statement; decide
theorem eq : Statement .eq := by unfold Statement; decide
theorem cat : Statement .cat := by unfold Statement; decide
theorem split : Statement .split := by unfold Statement; decide
theorem align : Statement .align := by unfold Statement; decide
theorem write : Statement .write := by unfold Statement; decide
theorem read : Statement .read := by unfold Statement; decide

end Sys2Proof.Laws.ReservedBitsZero
end

