-- ==== Sys2Proof/Laws/Run.lean ====
section
/-! SUPPORT. Runs of several edges. -/

namespace Sys2Proof.Laws

open Sys2Proof.Machine

@[simp] theorem run_zero (s : State) : Host.Core.run core 0 s = .next s := rfl

/-- One step of any machine's run. -/
theorem coreRun_succ (M : Host.Core) {s t : M.State} (h : M.step s = .next t) (n : Nat) :
    Host.Core.run M (n + 1) s = Host.Core.run M n t := by
  simp [Host.Core.run, h]

/-- A run of n + 1 edges is one step and a run of n edges from where it leads. -/
theorem run_succ_of_step {s t : State} (h : step s = .next t) (n : Nat) :
    Host.Core.run core (n + 1) s = Host.Core.run core n t := coreRun_succ core h n

/-- Successive edges the host counts: one, then the rest from where it leads. -/
theorem clockEdges_succ {s t : State} (h : step s = .next t) (n : Nat) :
    clockEdges (n + 1) s = clockEdges n t := by
  have h' : clockEdge s = .next t := h
  simp [clockEdges, h']

end Sys2Proof.Laws
end

