-- ==== Sys2Proof/Laws/Serialization.lean ====
section
/-! SUPPORT. The bits WRITE drives on the lanes, the bits READ accumulates from them, and what its code-count loop can
answer (spec 44_serialization.md R122, R126, R127). -/

namespace Sys2Proof.Laws

open Sys2Proof.Machine Sys2Proof.Safety

theorem byteCount_eq {c : Codeword} (h : c.length ≤ 64) : byteCount c = (c.length + 7) / 8 := by
  rw [byteCount, align_length h, Nat.mul_div_cancel_left _ (by decide)]

/-- Bit b of lane i is bit 8i+b of the codeword in stream order, 0 past its end (R122, R125). -/
theorem wireLane_getLsbD {c : Codeword} (hc : Canonical c) {i b : Nat} (hb : b < 8) :
    (wireLane c i).getLsbD b = (decide (8 * i + b < c.length) && streamBit c (8 * i + b)) := by
  have hl := hc.1
  obtain ⟨hp7, _, hpad⟩ := padOf_spec c.length
  by_cases hi : i < byteCount c
  · rw [byteCount_eq hl] at hi
    rw [wireLane, byteCount_eq hl, if_pos hi, wireByte, rev_getLsbD _ hb, BitVec.getLsbD_extractLsb',
      shr_getLsbD, align_getLsbD, align_length hl, streamBit, bitAt_of_canonical hc]
    by_cases hlt : 8 * i + b < c.length
    · have e1 : 7 - b < 8 := by omega
      have e2 : 8 * ((c.length + 7) / 8) - 8 * (i + 1) + (0 + (7 - b)) < 64 := by omega
      have e3 : ¬ (8 * ((c.length + 7) / 8) - 8 * (i + 1) + (0 + (7 - b)) < padOf c.length) := by omega
      have e4 : 8 * ((c.length + 7) / 8) - 8 * (i + 1) + (0 + (7 - b)) - padOf c.length =
          c.length - 1 - (8 * i + b) := by omega
      simp only [e1, e2, e3, e4, hlt, decide_true, decide_false, Bool.not_false, Bool.true_and]
    · have e3 : 8 * ((c.length + 7) / 8) - 8 * (i + 1) + (0 + (7 - b)) < padOf c.length := by omega
      simp only [e3, hlt, decide_true, decide_false, Bool.not_true, Bool.false_and, Bool.and_false]
  · have hge : ¬ 8 * i + b < c.length := by
      rw [byteCount_eq hl] at hi
      omega
    simp [wireLane, hi, hge]

/-- The stream the lanes carry after WRITE: the codeword's bits, then zeros (R125). -/
theorem wireLanes_laneBit {c : Codeword} (hc : Canonical c) {p : Nat} (hp : p < 64) :
    laneBit (wireLanes c) p = (decide (p < c.length) && streamBit c p) := by
  have hlane : ∀ i, i < 8 → (wireLanes c).toList.getD i 0 = wireLane c i := by
    intro i hi
    have : i = 0 ∨ i = 1 ∨ i = 2 ∨ i = 3 ∨ i = 4 ∨ i = 5 ∨ i = 6 ∨ i = 7 := by omega
    rcases this with rfl | rfl | rfl | rfl | rfl | rfl | rfl | rfl <;> rfl
  have e : 8 * (p / 8) + p % 8 = p := Nat.div_add_mod p 8
  rw [laneBit, hlane _ (by omega), wireLane_getLsbD hc (Nat.mod_lt _ (by decide)), e]

/-- One byte appended to the accumulator (R126). -/
theorem accumulate_step (acc : CodeVal) (b : Byte) (j : Nat) :
    (shl acc 8 ||| (rev b).setWidth 64).getLsbD j =
      if j < 8 then b.getLsbD (7 - j) else (decide (j < 64) && acc.getLsbD (j - 8)) := by
  rw [BitVec.getLsbD_or, shl_getLsbD, BitVec.getLsbD_setWidth]
  by_cases hj : j < 8
  · have h64 : j < 64 := by omega
    simp only [hj, h64, decide_true, Bool.not_true, Bool.and_false, Bool.false_and, Bool.false_or, Bool.true_and,
      if_true]
    exact rev_getLsbD b hj
  · simp only [hj, decide_false, Bool.not_false, Bool.and_true, if_false]
    rw [BitVec.getLsbD_of_ge (rev b) j (by omega), Bool.and_false, Bool.or_false]

/-- The accumulator after some bytes: their stream bits in its low end, what was there before above them. -/
theorem foldl_accumulate_getLsbD : ∀ (bytes : List Byte) (acc : CodeVal) (j : Nat), j < 64 →
    (bytes.foldl (fun acc b => shl acc 8 ||| (rev b).setWidth 64) acc).getLsbD j =
      if j < 8 * bytes.length then
        (bytes.getD ((8 * bytes.length - 1 - j) / 8) 0).getLsbD ((8 * bytes.length - 1 - j) % 8)
      else acc.getLsbD (j - 8 * bytes.length) := by
  intro bytes
  induction bytes with
  | nil => intro acc j _; simp
  | cons b bs ih =>
    intro acc j hj
    rw [List.foldl_cons, ih _ j hj, List.length_cons]
    by_cases h1 : j < 8 * bs.length
    · have h2 : j < 8 * (bs.length + 1) := by omega
      have e1 : (8 * (bs.length + 1) - 1 - j) / 8 = (8 * bs.length - 1 - j) / 8 + 1 := by omega
      have e2 : (8 * (bs.length + 1) - 1 - j) % 8 = (8 * bs.length - 1 - j) % 8 := by omega
      rw [if_pos h1, if_pos h2, e1, e2, List.getD_cons_succ]
    · rw [if_neg h1, accumulate_step]
      by_cases h2 : j < 8 * (bs.length + 1)
      · have h3 : j - 8 * bs.length < 8 := by omega
        have e1 : (8 * (bs.length + 1) - 1 - j) / 8 = 0 := by omega
        have e2 : (8 * (bs.length + 1) - 1 - j) % 8 = 7 - (j - 8 * bs.length) := by omega
        rw [if_pos h2, if_pos h3, e1, e2, List.getD_cons_zero]
      · have h3 : ¬ j - 8 * bs.length < 8 := by omega
        have h4 : j - 8 * bs.length < 64 := by omega
        have e1 : j - 8 * bs.length - 8 = j - 8 * (bs.length + 1) := by omega
        rw [if_neg h2, if_neg h3, decide_eq_true h4, Bool.true_and, e1]

theorem sourceBytes_length (l : Command) : (sourceBytes l).length = lanesRead l := by
  simp [sourceBytes, lanesRead]

/-- Bit `total - 1 - p` of READ's accumulator is bit p of the stream on BIN (R126, 20_memory.md R50, R51). -/
theorem accumulate_streamBit (l : Command) {p : Nat} (hp : p < 8 * lanesRead l) :
    (accumulate (sourceBytes l)).getLsbD (8 * lanesRead l - 1 - p) = laneBit l.bin p := by
  have h8 : lanesRead l ≤ 8 := Nat.min_le_right _ _
  rw [accumulate, foldl_accumulate_getLsbD _ _ _ (by omega), sourceBytes_length, if_pos (by omega)]
  have e : 8 * lanesRead l - 1 - (8 * lanesRead l - 1 - p) = p := by omega
  rw [e, laneBit, sourceBytes]
  have hi : p / 8 < lanesRead l := by omega
  simp [List.getD_eq_getElem?_getD, hi]

/-- No bit of READ's accumulator lies above its L = 8n bits. -/
theorem accumulate_getLsbD_of_ge (l : Command) {j : Nat} (hj : 8 * lanesRead l ≤ j) :
    (accumulate (sourceBytes l)).getLsbD j = false := by
  by_cases h64 : j < 64
  · rw [accumulate, foldl_accumulate_getLsbD _ _ _ h64, sourceBytes_length, if_neg (by omega)]
    simp
  · exact BitVec.getLsbD_of_ge _ _ (by omega)

@[simp] theorem bitsUsed_nil : bitsUsed [] = 0 := rfl

@[simp] theorem bitsUsed_cons (r : Nat) (runs : List Nat) : bitsUsed (r :: runs) = 2 * r + 1 + bitsUsed runs := by
  simp [bitsUsed]

/-- Codes laid end to end stay within the stream. -/
theorem bitsUsed_le {bit : Nat → Bool} {total : Nat} : ∀ {runs : List Nat} {pos : Nat}, pos ≤ total →
    CodesFrom bit total pos runs → pos + bitsUsed runs ≤ total
  | [], _, h, _ => h
  | r :: rest, pos, _, hcodes => by
    obtain ⟨_, _, _, hfit, hrest⟩ := hcodes
    have := bitsUsed_le hfit hrest
    rw [bitsUsed_cons]
    omega

/-- Where the stream holds a code at `pos`, the scan of the window that starts there is its length. -/
theorem scan_of_streamRun {acc : CodeVal} {bit : Nat → Bool} {total pos r : Nat}
    (hbit : ∀ p, p < total → acc.getLsbD (total - 1 - p) = bit p) (h1 : 1 ≤ r) (hfit : pos + r < total)
    (hrun : ∀ j, j < r → bit (pos + j) = bit pos) (hmarker : bit (pos + r) = !bit pos) :
    scan acc (total - pos) = 2 * r + 1 := by
  apply scan_of_run
  have hidx : ∀ j, j ≤ r → acc.getLsbD (total - pos - 1 - j) = bit (pos + j) := by
    intro j hj
    rw [← hbit (pos + j) (by omega)]
    congr 1
    omega
  have h0 : acc.getLsbD (total - pos - 1) = bit pos := by simpa using hidx 0 (by omega)
  refine ⟨h1, by omega, fun j hj => ?_, ?_⟩
  · rw [hidx j (by omega), h0, hrun j hj]
  · rw [hidx r (Nat.le_refl r), h0, hmarker]

/-- Where the rest of the stream has no flip, its scan is 0. -/
theorem scan_of_streamNoFlip {acc : CodeVal} {bit : Nat → Bool} {total pos : Nat}
    (hbit : ∀ p, p < total → acc.getLsbD (total - 1 - p) = bit p)
    (hrest : ∀ j, pos + j < total → bit (pos + j) = bit pos) : scan acc (total - pos) = 0 := by
  apply scan_of_noFlip
  intro j hj
  have hidx : ∀ j, j < total - pos → acc.getLsbD (total - pos - 1 - j) = bit (pos + j) := by
    intro j hj
    rw [← hbit (pos + j) (by omega)]
    congr 1
    omega
  have h0 : acc.getLsbD (total - pos - 1) = bit pos := by simpa using hidx 0 (by omega)
  rw [hidx j hj, h0, hrest j (by omega)]

/-- The code-count loop passes over codes laid end to end and goes on behind them (R127). -/
theorem locateCodes_over {acc : CodeVal} {bit : Nat → Bool} {total : Nat}
    (hbit : ∀ p, p < total → acc.getLsbD (total - 1 - p) = bit p) (m : Nat) :
    ∀ {runs : List Nat} {pos : Nat}, CodesFrom bit total pos runs →
      locateCodes acc total (m + runs.length) pos = locateCodes acc total m (pos + bitsUsed runs)
  | [], pos, _ => by simp
  | r :: rest, pos, hcodes => by
    obtain ⟨h1, hrun, hmarker, hfit, hrest⟩ := hcodes
    have hscan := scan_of_streamRun hbit h1 (by omega) hrun hmarker
    have hw : ¬ 2 * r + 1 > total - pos := by omega
    have ih := locateCodes_over hbit m hrest
    rw [List.length_cons, ← Nat.add_assoc, locateCodes]
    simp only [hscan, hw, if_false, Nat.add_eq_zero_iff, one_ne_zero, and_false]
    rw [ih, bitsUsed_cons, Nat.add_assoc]

/-- What the code-count loop can answer: all codes located, no flip in the rest, or a code that does not fit (R127). -/
theorem locateCodes_cases {acc : CodeVal} {bit : Nat → Bool} {total : Nat}
    (hbit : ∀ p, p < total → acc.getLsbD (total - 1 - p) = bit p) :
    ∀ (m pos : Nat), pos ≤ total →
      (∃ runs, runs.length = m ∧ CodesFrom bit total pos runs ∧
        locateCodes acc total m pos = .ok (pos + bitsUsed runs)) ∨
      (∃ runs, runs.length < m ∧ CodesFrom bit total pos runs ∧ locateCodes acc total m pos = .error .noMarker) ∨
      (∃ runs, runs.length < m ∧ CodesFrom bit total pos runs ∧ locateCodes acc total m pos = .error .overrun) := by
  intro m
  induction m with
  | zero => intro pos _; exact .inl ⟨[], rfl, trivial, by simp [locateCodes]⟩
  | succ m ih =>
    intro pos hpos
    have hidx : ∀ j, j < total - pos → acc.getLsbD (total - pos - 1 - j) = bit (pos + j) := by
      intro j hj
      rw [← hbit (pos + j) (by omega)]
      congr 1
      omega
    rcases scan_cases acc (total - pos) with ⟨_, h0⟩ | ⟨r, ⟨h1, hrw, hrun, hmarker⟩, hv⟩
    · exact .inr (.inl ⟨[], by simp, trivial, by simp [locateCodes, h0]⟩)
    · have hb0 : acc.getLsbD (total - pos - 1) = bit pos := by simpa using hidx 0 (by omega)
      by_cases hw : 2 * r + 1 > total - pos
      · exact .inr (.inr ⟨[], by simp, trivial, by simp [locateCodes, hv, hw]⟩)
      · have hstep : locateCodes acc total (m + 1) pos = locateCodes acc total m (pos + (2 * r + 1)) := by
          simp [locateCodes, hv, hw]
        have hhead : ∀ {rest : List Nat}, CodesFrom bit total (pos + (2 * r + 1)) rest →
            CodesFrom bit total pos (r :: rest) := fun hrest =>
          ⟨h1, fun j hj => by rw [← hidx j (by omega), hrun j hj, hb0],
            by rw [← hidx r hrw, hmarker, hb0], by omega, hrest⟩
        rcases ih (pos + (2 * r + 1)) (by omega) with ⟨rs, hl, hc, hr⟩ | ⟨rs, hl, hc, hr⟩ | ⟨rs, hl, hc, hr⟩
        · exact .inl ⟨r :: rs, by simp [hl], hhead hc, by rw [hstep, hr, bitsUsed_cons, Nat.add_assoc]⟩
        · exact .inr (.inl ⟨r :: rs, by simpa using hl, hhead hc, by rw [hstep, hr]⟩)
        · exact .inr (.inr ⟨r :: rs, by simpa using hl, hhead hc, by rw [hstep, hr]⟩)

end Sys2Proof.Laws
end

