-- ==== Sys2Proof/Tests/Slice0.lean ====
section
/-! SUPPORT. Tests: decoded words, written commands, one-step runs with the results of spec 95_test_vectors.md, and for
each statement of Certificates/Slice0/Obligations.lean that has hypotheses a state and operands that meet them. -/

namespace Sys2Proof.Tests

open Sys2Proof.Machine Sys2Proof.Safety

/-! States of the tests. -/

/-- A command word and its operands, every port not named at 0. -/
def cmd (w : CmdWord) (a : Codeword := ⟨0, 0⟩) (b : Codeword := ⟨0, 0⟩) (s0 : Scalar := 0) (s1 : Scalar := 0)
    (bin : Lanes := zeroLanes) : Command := ⟨w, a, b, s0, s1, bin⟩

/-- The unit after reset with a command in flight that completes at the next edge. -/
def flying (c : Command) : State := { State.reset with latch := c, status := 0x00000200 }

/-- The unit after reset with a command offered. -/
def offered (c : Command) : State := { State.reset with ports := ⟨c, true, false⟩ }

/-- The unit with FAULT = 1 from a BAD_OPCODE and a command in flight. -/
def faulty (c : Command) : State := { State.reset with latch := c, status := 0x00001313 }

/-- What one step leaves in the output registers. -/
def outputsAfter (s : State) : Option Outputs :=
  match step s with
  | .next t => some (outputs t)
  | .fault _ => none
  | .refused _ => none

/-- Outputs with CMD_READY = 1 and the registers not named at 0. -/
def shows (status : BitVec 32) (r : Codeword := ⟨0, 0⟩) (q : Codeword := ⟨0, 0⟩) (n : Scalar := 0)
    (bout : Lanes := zeroLanes) : Outputs := ⟨r.val, r.len, q.val, q.len, n, bout, status, true⟩

/-! Decoding: each word written bit by bit from 30_encoding.md R63 and R64, as RSV, HI, OP. -/

theorem test_decode_enc_lo : decode (0b00000000000#11 ++ 0b0#1 ++ 0b0001#4) = .ok (.enc false) := by rfl
theorem test_decode_enc_hi : decode (0b00000000000#11 ++ 0b1#1 ++ 0b0001#4) = .ok (.enc true) := by rfl
theorem test_decode_clen : decode (0b00000000000#11 ++ 0b0#1 ++ 0b0010#4) = .ok .clen := by rfl
theorem test_decode_dec : decode (0b00000000000#11 ++ 0b0#1 ++ 0b0011#4) = .ok .dec := by rfl
theorem test_decode_lead : decode (0b00000000000#11 ++ 0b0#1 ++ 0b0100#4) = .ok .lead := by rfl
theorem test_decode_eq : decode (0b00000000000#11 ++ 0b0#1 ++ 0b0101#4) = .ok .eq := by rfl
theorem test_decode_cat : decode (0b00000000000#11 ++ 0b0#1 ++ 0b0110#4) = .ok .cat := by rfl
theorem test_decode_split : decode (0b00000000000#11 ++ 0b0#1 ++ 0b0111#4) = .ok .split := by rfl
theorem test_decode_align : decode (0b00000000000#11 ++ 0b0#1 ++ 0b1000#4) = .ok .align := by rfl
theorem test_decode_write : decode (0b00000000000#11 ++ 0b0#1 ++ 0b1001#4) = .ok .write := by rfl
theorem test_decode_read : decode (0b00000000000#11 ++ 0b0#1 ++ 0b1010#4) = .ok .read := by rfl

/-- An undefined opcode is BAD_OPCODE even with reserved bits set (95_test_vectors.md VX.8, VX.3). -/
theorem test_decode_bad_opcode : decode 0x0010 = .error .badOpcode ∧ decode 0x000F = .error .badOpcode ∧
    decode 0xFFFB = .error .badOpcode := ⟨rfl, rfl, rfl⟩

/-- A reserved bit of a defined opcode (VX.5, VX.6, VX.9). -/
theorem test_decode_reserved : decode 0x0012 = .error .reservedBits ∧ decode 0x8001 = .error .reservedBits ∧
    decode 0x0031 = .error .reservedBits := ⟨rfl, rfl, rfl⟩

/-! Written commands: one ill-formed for each check, and a well-formed one. -/

theorem test_wf_accepts : (AsmCommand.mk .read [.bin (.bout 0 7), .s0 (.literal 8), .s1 (.literal 21)]).wf = true := by
  decide

/-- ENC reads no A (30_encoding.md R75). -/
theorem test_wf_refuses_port : (AsmCommand.mk (.enc false) [.a .regR]).wf = false := by decide

/-- S0 assigned twice. -/
theorem test_wf_refuses_duplicate :
    (AsmCommand.mk (.enc true) [.s0 (.literal 1), .s0 (.literal 2)]).wf = false := by decide

/-- BOUT has no lane 8, and a range runs upward (log 11). -/
theorem test_wf_refuses_range : (AsmCommand.mk .read [.bin (.bout 0 8)]).wf = false ∧
    (AsmCommand.mk .read [.bin (.bout 3 1)]).wf = false ∧ parseHostLine ".save %s = BOUT[0..8]" = none ∧
    boutBytes State.reset 7 8 = .error .badLanes := ⟨by decide, by decide, by decide +kernel, rfl⟩

/-- Nine bytes for eight lanes. -/
theorem test_wf_refuses_lanes :
    (AsmCommand.mk .read [.bin (.literal [1, 2, 3, 4, 5, 6, 7, 8, 9])]).wf = false := by decide

/-! One step each, with the results of 95_test_vectors.md. -/

/-- VE.11. -/
theorem test_enc_lo_9 : outputsAfter (flying (cmd 0x0001 (s0 := 9))) = some (shows 0 (r := ⟨0xB, 7⟩)) := by decide
/-- VE.22, the largest encodable value. -/
theorem test_enc_hi_max : outputsAfter (flying (cmd 0x0011 (s0 := 4294967293))) =
    some (shows 0 (r := ⟨0x7FFFFFFF7FFFFFFF, 63⟩)) := by decide
/-- VC.3. -/
theorem test_clen_window : outputsAfter (flying (cmd 0x0002 (a := ⟨0x3411, 14⟩) (s0 := 9))) =
    some (shows 0 (n := 9)) := by decide
/-- VC.17: BAD_LENGTH before BAD_WINDOW. -/
theorem test_clen_bad_length : outputsAfter (flying (cmd 0x0002 (a := ⟨0x1A, 70⟩) (s0 := 99))) =
    some (shows 0x00003133) := by decide
/-- VD.15. -/
theorem test_dec_max : outputsAfter (flying (cmd 0x0003 (a := ⟨0x7FFFFFFF7FFFFFFF, 63⟩))) =
    some (shows 0 (n := 4294967293)) := by decide
/-- VD.20: two codes are not one. -/
theorem test_dec_not_a_code : outputsAfter (flying (cmd 0x0003 (a := ⟨0x16, 6⟩))) = some (shows 0x00006163) := by decide
/-- VL.5. -/
theorem test_lead_canonicalises : outputsAfter (flying (cmd 0x0004 (a := ⟨0xFF, 3⟩))) = some (shows 0 (n := 1)) := by
  decide
/-- VL.8. -/
theorem test_lead_empty : outputsAfter (flying (cmd 0x0004)) = some (shows 0x00007173) := by decide
/-- VQ.3. -/
theorem test_eq_masks : outputsAfter (flying (cmd 0x0005 (a := ⟨0x5, 3⟩) (b := ⟨0xD, 3⟩))) =
    some (shows 0 (n := 1)) := by decide
/-- VQ.4. -/
theorem test_eq_lengths : outputsAfter (flying (cmd 0x0005 (a := ⟨0x2, 3⟩) (b := ⟨0x2, 4⟩))) = some (shows 0) := by
  decide
/-- VT.7. -/
theorem test_cat_masks : outputsAfter (flying (cmd 0x0006 (a := ⟨0xF5, 3⟩) (b := ⟨0xF0, 4⟩))) =
    some (shows 0 (r := ⟨0x50, 7⟩)) := by decide
/-- VT.8. -/
theorem test_cat_overflow : outputsAfter (flying (cmd 0x0006 (a := ⟨0x1, 33⟩) (b := ⟨0x1, 32⟩))) =
    some (shows 0x00008183) := by decide
/-- VS.5. -/
theorem test_split_wide : outputsAfter (flying (cmd 0x0007 (a := ⟨0xFFFFFFFEFFFFFFFF, 64⟩))) =
    some (shows 0 (r := ⟨0x7FFFFFFF7FFFFFFF, 63⟩) (q := ⟨0x1, 1⟩)) := by decide
/-- VS.11. -/
theorem test_split_overrun : outputsAfter (flying (cmd 0x0007 (a := ⟨0x1, 2⟩))) = some (shows 0x00000021) := by decide
/-- VA.1. -/
theorem test_align_pads : outputsAfter (flying (cmd 0x0008 (a := ⟨0x3411, 14⟩))) =
    some (shows 0 (r := ⟨0xD044, 16⟩)) := by decide
/-- VA.9. -/
theorem test_align_full : outputsAfter (flying (cmd 0x0008 (a := ⟨0xFFFFFFFFFFFFFFFF, 64⟩))) =
    some (shows 0 (r := ⟨0xFFFFFFFFFFFFFFFF, 64⟩)) := by decide
/-- VW.5. -/
theorem test_write_two_bytes : outputsAfter (flying (cmd 0x0009 (a := ⟨0x3411, 14⟩) (s0 := 2))) =
    some (shows 0 (n := 2) (bout := #v[0x0B, 0x22, 0, 0, 0, 0, 0, 0])) := by decide +kernel
/-- VW.6. -/
theorem test_write_nospace : outputsAfter (flying (cmd 0x0009 (a := ⟨0x3411, 14⟩) (s0 := 1))) =
    some (shows 0x00000002) := by decide
/-- VR.3. -/
theorem test_read_one_of_two : outputsAfter (flying (cmd 0x000A (s0 := 2) (s1 := 1)
    (bin := #v[0x0B, 0x22, 0, 0, 0, 0, 0, 0]))) = some (shows 0 (r := ⟨0x1A, 5⟩) (n := 1)) := by decide +kernel
/-- VR.18. -/
theorem test_read_21 : outputsAfter (flying (cmd 0x000A (s0 := 8) (s1 := 21)
    (bin := #v[0x92, 0x24, 0x49, 0x92, 0x24, 0x49, 0x92, 0x24]))) =
    some (shows 0 (r := ⟨0x2492492492492492, 63⟩) (n := 8)) := by decide +kernel

/-- VX.2: an undefined opcode. -/
theorem test_bad_opcode : outputsAfter (flying (cmd 0x000B)) = some (shows 0x00001113) := by decide
/-- VF.1: the next command after a violation. -/
theorem test_rejected : outputsAfter (faulty (cmd 0x0001 (s0 := 1))) = some (shows 0x00001104) := by decide
/-- VF.5: while BUSY = 1 the outputs are those of the last completion. -/
theorem test_accept_keeps_r : outputsAfter { offered (cmd 0x0001 (s0 := 1)) with r := ⟨0x2, 3⟩ } =
    some { shows 0x00000200 (r := ⟨0x2, 3⟩) with cmdReady := false } := by decide

/-! Text (30_encoding.md R75, R78). -/

theorem test_disassemble : disassemble 0x0011 = "ENC.HI" ∧ disassemble 0xBEEF = ".illegal 0xBEEF" := by decide +kernel

theorem test_parse_cat : parseHostLine "CAT A=(0x1A,5), B=(0x11,9)" =
    some (.issue ⟨.cat, [.a (.literal 0x1A 5), .b (.literal 0x11 9)]⟩) := by decide +kernel

/-- A byte list with a comma before its bracket is refused; a comment line of a program is passed over (log 11). -/
theorem test_parse_lines : parseHostLine "READ BIN=[1,], S0=1, S1=1" = none ∧
    parseProgram ["; boot", "", "RST"] = some [.rst] := by decide +kernel

theorem test_parse_expect : parseHostLine ".expect FCAUSE = 8" = some (.expect (.scalar .fcause (.literal 8))) ∧
    parseHostLine ".expect BOUT[0..1] = [0x0B,0x22]" = some (.expect (.bout 0 1 (.literal [0x0B, 0x22]))) ∧
    parseHostLine ".expect Q = %rest" = some (.expect (.regQ (.var "rest"))) := by decide +kernel

/-! Witnesses: states and operands that meet the hypotheses of the statements. -/

/-- Any other bit may be set beside an undefined opcode. -/
theorem witness_UndefinedOpcode : AtCompletion (flying (cmd 0xFFF0)) ∧ statusFault (flying (cmd 0xFFF0)).status = false ∧
    (flying (cmd 0xFFF0)).latch.cmd.extractLsb' 0 4 ∈ [0x0#4, 0xB#4, 0xC#4, 0xD#4, 0xE#4, 0xF#4] ∧
    AtCompletion (flying (cmd 0x000F)) ∧ statusFault (flying (cmd 0x000F)).status = false ∧
    (flying (cmd 0x000F)).latch.cmd.extractLsb' 0 4 ∈ [0x0#4, 0xB#4, 0xC#4, 0xD#4, 0xE#4, 0xF#4] := by decide

/-- The lowest and the highest bit of RSV, and HI outside ENC. -/
theorem witness_ReservedBit : AtCompletion (flying (cmd 0x0012)) ∧ statusFault (flying (cmd 0x0012)).status = false ∧
    (0x0021#16).getLsbD 5 = true ∧ (0x0021#16).extractLsb' 0 4 ∉ [0x0#4, 0xB#4, 0xC#4, 0xD#4, 0xE#4, 0xF#4] ∧
    (0x800A#16).getLsbD 15 = true ∧ (0x800A#16).extractLsb' 0 4 ∉ [0x0#4, 0xB#4, 0xC#4, 0xD#4, 0xE#4, 0xF#4] ∧
    (0x0012#16).extractLsb' 0 4 ≠ 1#4 ∧ (0x0012#16).getLsbD 4 = true := by decide

theorem witness_Disassembly : decode 0xFFFF = .error .badOpcode ∧ decode 0x0011 = .ok (.enc true) ∧
    disassemble 0x0011 = disassemble 0x0011 := ⟨rfl, rfl, rfl⟩

theorem witness_StepRunsDecoded : AtCompletion (flying (cmd 0x0007)) ∧ statusFault (flying (cmd 0x0007)).status = false ∧
    decode (flying (cmd 0x0007)).latch.cmd = .ok .split ∧ Instr.wf .split = true := ⟨by decide, by decide, rfl, rfl⟩

theorem witness_FaultedUnit : AtCompletion (faulty (cmd 0x0000)) ∧ statusFault (faulty (cmd 0x0000)).status = true := by
  decide

/-- An accepting edge, and three that are not: nothing offered, a command in flight, RST = 1. -/
theorem witness_Acceptance :
    ((offered (cmd 0x0002)).ports.rst = false ∧ (offered (cmd 0x0002)).ports.cmdValid = true ∧
      cmdReady (offered (cmd 0x0002)) = true) ∧
    (State.reset.ports.cmdValid = false ∧ ∃ t, step State.reset = .next t) ∧
    (cmdReady (flying (cmd 0x0002)) = false ∧ ∃ t, step (flying (cmd 0x0002)) = .next t) ∧
    ({ State.reset with ports := ⟨cmd 0x0002, true, true⟩ : State }.ports.rst = true ∧
      ∃ t, step { State.reset with ports := ⟨cmd 0x0002, true, true⟩ } = .next t) :=
  ⟨by decide, ⟨rfl, _, rfl⟩, ⟨by decide, _, rfl⟩, ⟨rfl, _, rfl⟩⟩

theorem witness_IdleAndWaiting :
    (State.reset.ports.rst = false ∧ statusBusy State.reset.status = false ∧ State.reset.ports.cmdValid = false) ∧
    ({ flying (cmd 0x0002) with wait := 1 : State }.ports.rst = false ∧
      statusBusy { flying (cmd 0x0002) with wait := 1 : State }.status = true ∧
      { flying (cmd 0x0002) with wait := 1 : State }.wait = 0 + 1) := by decide

/-- Reset in the middle of a command of a faulted unit. -/
theorem witness_ResetEdge : { faulty (cmd 0x0002) with ports := ⟨cmd 0, true, true⟩ : State }.ports.rst = true := by decide

/-- LAT = 1 (the shortest) and LAT = 3. -/
theorem witness_Completion :
    ((offered (cmd 0x0002)).ports.rst = false ∧ (offered (cmd 0x0002)).ports.cmdValid = true ∧
      statusBusy (offered (cmd 0x0002)).status = false ∧ 0 ≤ (offered (cmd 0x0002)).extraCycles.headD 0) ∧
    ({ offered (cmd 0x0002) with extraCycles := [2] : State }.ports.cmdValid = true ∧
      2 ≤ { offered (cmd 0x0002) with extraCycles := [2] : State }.extraCycles.headD 0) := by decide

/-- A completion by a step and one by exec. -/
theorem witness_CompletionEmpties : (AtCompletion (flying (cmd 0x0002 (s0 := 9))) ∧
      ∃ t, step (flying (cmd 0x0002 (s0 := 9))) = .next t) ∧ ∃ t, exec .read (flying (cmd 0x000A (s1 := 4))) = .next t :=
  ⟨⟨by decide, _, rfl⟩, _, rfl⟩

/-- A command in flight that the host still offers. -/
def held : State := { flying (cmd 0x0001) with ports := ⟨cmd 0x0001, true, false⟩ }

theorem witness_HeldValid : AtCompletion held ∧ held.ports.cmdValid = true ∧ ∃ t u, step held = .next t ∧ step t = .next u :=
  ⟨by decide, rfl, _, _, rfl, rfl⟩

theorem witness_IssueProtocol : statusBusy State.reset.status = false ∧ statusFault State.reset.status = false ∧
    decode (cmd 0x0006).cmd = .ok .cat := ⟨by decide, by decide, rfl⟩

/-- The invariant holds of a unit that has completed a code and has the next command in flight, and of a faulted one. -/
theorem witness_Invariant :
    (Inv { flying (cmd 0x0001) with r := ⟨0x2, 3⟩ } ∧ ∃ t, step { flying (cmd 0x0001) with r := ⟨0x2, 3⟩ } = .next t) ∧
    (Inv (faulty (cmd 0x0000)) ∧ ∃ t, step (faulty (cmd 0x0000)) = .next t) :=
  ⟨⟨⟨by decide, by decide, by decide, by decide, by decide, by decide, by decide, by decide⟩, _, rfl⟩,
    ⟨⟨by decide, by decide, by decide, by decide, by decide, by decide, by decide, by decide⟩, _, rfl⟩⟩

/-- A completion of each kind of outcome: OK, an illegal word of each cause, REJECTED, and a failed command. -/
theorem witness_Outcomes :
    (AtCompletion (flying (cmd 0x0001)) ∧ decode 0x0001 = .ok (.enc false) ∧ ∃ t, step (flying (cmd 0x0001)) = .next t) ∧
    (AtCompletion (flying (cmd 0x0000)) ∧ decode 0x0000 = .error .badOpcode ∧ ∃ t, step (flying (cmd 0x0000)) = .next t) ∧
    (AtCompletion (flying (cmd 0x0012)) ∧ decode 0x0012 = .error .reservedBits ∧
      ∃ t, step (flying (cmd 0x0012)) = .next t) ∧
    (AtCompletion (faulty (cmd 0x0001)) ∧ statusFault (faulty (cmd 0x0001)).status = true ∧
      ∃ t, step (faulty (cmd 0x0001)) = .next t) ∧
    (3, 8) ∈ failuresOf .cat :=
  ⟨⟨by decide, rfl, _, rfl⟩, ⟨by decide, rfl, _, rfl⟩, ⟨by decide, rfl, _, rfl⟩, ⟨by decide, by decide, _, rfl⟩,
    by decide⟩

/-- Results of an OK completion and of a failure, for a command that produces R, Q, R_SCL or BOUT and one that does not. -/
theorem witness_UnproducedResults :
    (∃ t, exec .cat (flying (cmd 0x0006 (a := ⟨0, 65⟩))) = .next t ∧ statusCode t.status ≠ 0) ∧
    (∃ t, exec .cat (flying (cmd 0x0006)) = .next t) ∧ writesR .clen = false ∧ writesQ .cat = false ∧
    writesScalar .cat = false ∧ writesLanes .cat = false :=
  ⟨⟨_, rfl, by decide⟩, ⟨_, rfl⟩, rfl, rfl, rfl, rfl⟩

/-- A completion that fails, one that succeeds, and the commands that produce no R or no Q. -/
theorem witness_Produced :
    (AtCompletion (flying (cmd 0x0003)) ∧ ∃ t, step (flying (cmd 0x0003)) = .next t ∧ statusCode t.status ≠ 0) ∧
    (∃ t, exec .split (flying (cmd 0x0007 (a := ⟨0x3411, 14⟩))) = .next t) ∧ writesR .write = false ∧ writesQ .read = false :=
  ⟨⟨by decide, _, rfl, by decide⟩, ⟨_, rfl⟩, rfl, rfl⟩

/-- Each clause of the stickiness of FAULT: a violation completing, a faulted unit that completes and one that accepts,
a unit whose FAULT an edge sets, and one whose FAULT stays 0. -/
theorem witness_Fault :
    (AtCompletion (flying (cmd 0x0000)) ∧ ∃ t, step (flying (cmd 0x0000)) = .next t ∧ statusCode t.status = 3 ∧
      statusFault (flying (cmd 0x0000)).status = false ∧ statusFault t.status = true) ∧
    (AtCompletion (faulty (cmd 0x0001)) ∧ statusFault (faulty (cmd 0x0001)).status = true ∧
      ∃ t, step (faulty (cmd 0x0001)) = .next t) ∧
    (statusFcause (flying (cmd 0x0001)).status = 0 ∧
      ∃ t, step (flying (cmd 0x0001)) = .next t ∧ statusFault t.status = false) :=
  ⟨⟨by decide, _, rfl, by decide, by decide, by decide⟩, ⟨by decide, by decide, _, rfl⟩, ⟨by decide, _, rfl, by decide⟩⟩

/-- The least length that is too long, on A and on B, and an illegal word with such a length. -/
theorem witness_BadLength :
    (Port.a ∈ Instr.portsRead .write ∧ 64 < (cmd 0x0009 (a := ⟨0, 65⟩)).a.length) ∧
    (Port.b ∈ Instr.portsRead .eq ∧ (cmd 0x0005 (a := ⟨0, 64⟩) (b := ⟨0, 65⟩)).a.length ≤ 64 ∧
      64 < (cmd 0x0005 (a := ⟨0, 64⟩) (b := ⟨0, 65⟩)).b.length) ∧
    (AtCompletion (flying (cmd 0x0015 (a := ⟨0, 65⟩))) ∧ statusFault (flying (cmd 0x0015 (a := ⟨0, 65⟩))).status = false ∧
      decode 0x0015 = .error .reservedBits) := ⟨by decide, by decide, by decide, by decide, rfl⟩

/-- Two latches that agree on the lanes below S0 = 1 and on the counts, and on nothing else. -/
theorem witness_PortsReadOnly :
    let l := cmd 0x000A (s0 := 1) (s1 := 1) (bin := #v[0x68, 0, 0, 0, 0, 0, 0, 0])
    let l' := cmd 0x000A (a := ⟨5, 99⟩) (s0 := 1) (s1 := 1) (bin := #v[0x68, 1, 2, 3, 4, 5, 6, 7])
    (flying l).encLimit = (flying l').encLimit ∧ (∀ p, p ∈ Instr.portsRead .read → agreesOn (flying l).latch (flying l').latch p) ∧
    (∃ t, exec .read (flying l) = .next t) ∧ ∃ t', exec .read (flying l') = .next t' := by
  refine ⟨rfl, fun p hp => ?_, ⟨_, rfl⟩, ⟨_, rfl⟩⟩
  have hp' : p = .bin ∨ p = .s0 ∨ p = .s1 := by simpa [Instr.portsRead] using hp
  rcases hp' with rfl | rfl | rfl
  · show ∀ i, i < 1 → _
    decide
  · rfl
  · rfl

/-- The last value accepted, the first refused and the last refused; ENC's two words. -/
theorem witness_Enc : (cmd 0x0001 (s0 := 4294967293)).s0.toNat < 4294967294 ∧
    4294967294 ≤ (cmd 0x0001 (s0 := 4294967294)).s0.toNat ∧ 4294967294 ≤ (cmd 0x0001 (s0 := 4294967295)).s0.toNat ∧
    (0x0001 : CmdWord) &&& 0xFFEF = 0x0001 ∧ (0x0011 : CmdWord) &&& 0xFFEF = 0x0001 := by decide

/-- The same boundaries for a unit built with the other ENC_LIMIT. -/
theorem witness_EncLimit : { flying (cmd 0x0001 (s0 := 4294967292)) with encLimit := .cctKMinusOne : State }.encLimit =
      .cctKMinusOne ∧
    (cmd 0x0001 (s0 := 4294967292)).s0.toNat < 4294967293 ∧ 4294967293 ≤ (cmd 0x0001 (s0 := 4294967293)).s0.toNat ∧
    (flying (cmd 0x0001)).encLimit = .cctK ∧ ∃ t, step (flying (cmd 0x0001)) = .next t :=
  ⟨rfl, by decide, by decide, rfl, _, rfl⟩

/-- The longest run, no flip in the widest window and in the empty one, a window of 65, a length of 65. -/
theorem witness_Clen :
    ((cmd 0x0002 (a := ⟨1, 64⟩)).a.length ≤ 64 ∧ RunThenMarker (bitAt ⟨1, 64⟩) 64 63) ∧
    RunThenMarker (bitAt ⟨2, 2⟩) 2 1 ∧ NoFlip (bitAt ⟨0xFFFFFFFFFFFFFFFF, 64⟩) 64 ∧ NoFlip (bitAt ⟨1, 1⟩) 0 ∧
    64 < (cmd 0x0002 (s0 := 65)).s0.toNat ∧ 64 < (cmd 0x0002 (a := ⟨0, 65⟩)).a.length := by decide

/-- The shortest code and the longest, and an operand that is none. -/
theorem witness_Dec : CodeLayout ⟨0x2, 3⟩ 1 false 0 ∧ CodeLayout ⟨0x7FFFFFFF7FFFFFFF, 63⟩ 31 true 2147483647 ∧
    ((cmd 0x0003 (a := ⟨1, 64⟩)).a.length ≤ 64 ∧ ¬ CompleteCode ⟨1, 64⟩) ∧ 64 < (cmd 0x0003 (a := ⟨0, 65⟩)).a.length := by
  refine ⟨by decide, by decide, ⟨by decide, ?_⟩, by decide⟩
  rintro ⟨k, hi, offset, _, _, _, hlen, _⟩
  have h : (⟨1, 64⟩ : Codeword).length = 64 := rfl
  omega

theorem witness_Lead : (1 ≤ (cmd 0x0004 (a := ⟨1, 1⟩)).a.length ∧ (cmd 0x0004 (a := ⟨1, 64⟩)).a.length ≤ 64) ∧
    (cmd 0x0004 (a := ⟨1, 0⟩)).a.length = 0 ∧ 64 < (cmd 0x0004 (a := ⟨1, 65⟩)).a.length := by decide

/-- Equal length-64 operands, unequal ones, and each length one too long. -/
theorem witness_Eq :
    ((⟨7, 64⟩ : Codeword).length ≤ 64 ∧ ∀ j, j < (⟨7, 64⟩ : Codeword).length →
      (⟨7, 64⟩ : Codeword).val.getLsbD j = (⟨7, 64⟩ : Codeword).val.getLsbD j) ∧
    ¬((⟨0, 0⟩ : Codeword).length = (⟨0, 1⟩ : Codeword).length) ∧ 64 < (cmd 0x0005 (a := ⟨0, 65⟩)).a.length ∧
    64 < (cmd 0x0005 (b := ⟨0, 65⟩)).b.length := by decide

theorem witness_EqIsAnEquivalence : equalCodewords (canon ⟨0xD, 3⟩) (canon ⟨0x5, 3⟩) = true ∧
    equalCodewords (canon ⟨0x5, 3⟩) (canon ⟨0x15, 3⟩) = true ∧ 4294967293 < 4294967294 := by decide

/-- A sum of 64, a sum of 65, and each length one too long. -/
theorem witness_Cat : (cmd 6 (a := ⟨1, 63⟩) (b := ⟨1, 1⟩)).a.length + (cmd 6 (a := ⟨1, 63⟩) (b := ⟨1, 1⟩)).b.length ≤ 64 ∧
    ((cmd 6 (a := ⟨1, 64⟩) (b := ⟨1, 1⟩)).a.length ≤ 64 ∧ (cmd 6 (a := ⟨1, 64⟩) (b := ⟨1, 1⟩)).b.length ≤ 64 ∧
      64 < (cmd 6 (a := ⟨1, 64⟩) (b := ⟨1, 1⟩)).a.length + (cmd 6 (a := ⟨1, 64⟩) (b := ⟨1, 1⟩)).b.length) ∧
    64 < (cmd 6 (a := ⟨1, 65⟩)).a.length ∧ 64 < (cmd 6 (b := ⟨1, 65⟩)).b.length := by decide

theorem witness_Concat : Canonical ⟨0x1A, 5⟩ ∧ Canonical ⟨0, 0⟩ ∧ Canonical ⟨0x7FFFFFFFFFFFFFF, 59⟩ ∧
    (⟨0x1A, 5⟩ : Codeword).length + (⟨0, 0⟩ : Codeword).length + (⟨0x7FFFFFFFFFFFFFF, 59⟩ : Codeword).length ≤ 64 := by
  decide

/-- A code that fills the buffer, one a bit too long, a buffer without a flip, a length one too long. -/
theorem witness_Split :
    (RunThenMarker (bitAt ⟨0x2, 3⟩) 3 1 ∧ 2 * 1 + 1 ≤ (⟨0x2, 3⟩ : Codeword).length) ∧
    (RunThenMarker (bitAt ⟨0x1, 2⟩) 2 1 ∧ (⟨0x1, 2⟩ : Codeword).length < 2 * 1 + 1) ∧
    NoFlip (bitAt ⟨1, 1⟩) 1 ∧ 64 < (cmd 7 (a := ⟨0, 65⟩)).a.length := by decide

theorem witness_Align : (cmd 8 (a := ⟨1, 64⟩)).a.length ≤ 64 ∧ (cmd 8 (a := ⟨0, 0⟩)).a.length ≤ 64 ∧
    64 < (cmd 8 (a := ⟨1, 65⟩)).a.length ∧ Canonical ⟨0x7FFFFFFF7FFFFFFF, 63⟩ := by decide

/-- Just enough capacity, one byte too little, a length one too long. -/
theorem witness_Write :
    ((cmd 9 (a := ⟨1, 57⟩) (s0 := 8)).a.length + 7) / 8 ≤ (cmd 9 (a := ⟨1, 57⟩) (s0 := 8)).s0.toNat ∧
    (cmd 9 (a := ⟨1, 57⟩) (s0 := 7)).s0.toNat < ((cmd 9 (a := ⟨1, 57⟩) (s0 := 7)).a.length + 7) / 8 ∧
    64 < (cmd 9 (a := ⟨1, 65⟩)).a.length := by decide

/-- The bytes of VR.2: 11010 000010001 and padding. -/
def twoCodes : Lanes := #v[0x0B, 0x22, 0, 0, 0, 0, 0, 0]

theorem twoCodes_from : CodesFrom (laneBit twoCodes) (8 * min 2 8) 0 [2, 4] :=
  ⟨by decide, by decide, by decide, by decide, by decide, by decide, by decide, by decide, trivial⟩

theorem witness_ReadGathers : 1 ≤ [2, 4].length ∧ [2, 4].length = (cmd 10 (s0 := 2) (s1 := 2)).s1.toNat ∧
    1 ≤ (cmd 10 (s0 := 2) (s1 := 2)).s0.toNat ∧ CodesFrom (laneBit twoCodes) (8 * min 2 8) 0 [2, 4] :=
  ⟨by decide, by decide, by decide, twoCodes_from⟩

/-- No source byte; no code asked for; two codes then a rest without a flip; no code before one that does not fit. -/
theorem witness_ReadFails : (cmd 10 (s0 := 0)).s0.toNat = 0 ∧
    (1 ≤ (cmd 10 (s0 := 1)).s0.toNat ∧ (cmd 10 (s0 := 1)).s1.toNat = 0) ∧
    ([2, 4].length < (cmd 10 (s0 := 2) (s1 := 3)).s1.toNat ∧
      CodesFrom (laneBit twoCodes) (8 * min 2 8) 0 [2, 4] ∧
      ∀ j, j < 2 → laneBit twoCodes (bitsUsed [2, 4] + j) = laneBit twoCodes (bitsUsed [2, 4])) ∧
    (([] : List Nat).length < (cmd 10 (s0 := 1) (s1 := 1)).s1.toNat ∧
      1 ≤ 4 ∧ bitsUsed [] + 4 < 8 * min 1 8 ∧ 8 * min 1 8 < bitsUsed [] + (2 * 4 + 1) ∧
      (∀ j, j < 4 → laneBit #v[0x10, 0, 0, 0, 0, 0, 0, 0] j = laneBit #v[0x10, 0, 0, 0, 0, 0, 0, 0] 0) ∧
      laneBit #v[0x10, 0, 0, 0, 0, 0, 0, 0] 4 = !laneBit #v[0x10, 0, 0, 0, 0, 0, 0, 0] 0) :=
  ⟨by decide, by decide, ⟨by decide, twoCodes_from, by decide⟩, by decide⟩

theorem witness_ReadTooMany : (1 ≤ (cmd 10 (s0 := 1) (s1 := 3)).s0.toNat ∧
      8 * min (cmd 10 (s0 := 1) (s1 := 3)).s0.toNat 8 / 3 < (cmd 10 (s0 := 1) (s1 := 3)).s1.toNat) ∧
    (1 ≤ (cmd 10 (s0 := 8) (s1 := 22)).s0.toNat ∧ 22 ≤ (cmd 10 (s0 := 8) (s1 := 22)).s1.toNat) ∧
    (cmd 10 (s0 := 0) (s1 := 22)).s0.toNat = 0 := by decide

/-- A window that scans to a code and one that does not; values that agree on a window, and on its top three bits. -/
theorem witness_Scan : scan 0x2 64 ≠ 0 ∧ (∀ i, i < 3 → (0xF02 : CodeVal).getLsbD i = (0x2 : CodeVal).getLsbD i) ∧
    RunThenMarker (0x4 : CodeVal).getLsbD 5 2 ∧
    (∀ j, j ≤ 2 → (0x4 : CodeVal).getLsbD (5 - 1 - j) = (0x27 : CodeVal).getLsbD (5 - 1 - j)) := by decide

theorem witness_ScanOfLeadingCode : Canonical ⟨0x1A, 5⟩ ∧ Canonical ⟨0x7FFFFFFFFFFFFFF, 59⟩ ∧
    scan (⟨0x1A, 5⟩ : Codeword).val (⟨0x1A, 5⟩ : Codeword).length = (⟨0x1A, 5⟩ : Codeword).length ∧
    (⟨0x1A, 5⟩ : Codeword).length ≠ 0 ∧ (⟨0x1A, 5⟩ : Codeword).length + (⟨0x7FFFFFFFFFFFFFF, 59⟩ : Codeword).length ≤ 64 := by
  decide

theorem witness_EncThenDec : (flying (cmd 0x0011 (s0 := 4294967293))).latch.s0.toNat <
      encLimitValue (flying (cmd 0x0011 (s0 := 4294967293))).encLimit ∧
    ∃ t, exec (.enc true) (flying (cmd 0x0011 (s0 := 4294967293))) = .next t ∧
      (flying (cmd 2 (a := ⟨0x7FFFFFFF7FFFFFFF, 63⟩) (s0 := 63))).latch.a = t.r ∧
      (flying (cmd 2 (a := ⟨0x7FFFFFFF7FFFFFFF, 63⟩) (s0 := 63))).latch.s0.toNat = t.r.length :=
  ⟨by decide, _, rfl, by decide, by decide⟩

theorem code_1A : CompleteCode ⟨0x1A, 5⟩ := ⟨2, true, 2, by decide⟩
theorem code_11 : CompleteCode ⟨0x11, 9⟩ := ⟨4, false, 1, by decide⟩

theorem witness_DecThenEnc : CompleteCode (flying (cmd 3 (a := ⟨0xFA, 5⟩))).latch.a ∧
    (flying (cmd 1 (s0 := 4))).latch.s0 = 4 ∧ 4 < encLimitValue (flying (cmd 1 (s0 := 4))).encLimit ∧
    ∃ t, exec (.enc true) (flying (cmd 1 (s0 := 4))) = .next t ∧ t.r = canon ⟨0xFA, 5⟩ :=
  ⟨⟨2, true, 2, by decide⟩, rfl, by decide, _, rfl, by decide⟩

theorem witness_CatThenSplit : CompleteCode (flying (cmd 6 (a := ⟨0x1A, 5⟩) (b := ⟨0x11, 59⟩))).latch.a ∧
    (⟨0x1A, 5⟩ : Codeword).length + (⟨0x11, 59⟩ : Codeword).length ≤ 64 ∧
    ∃ t, exec .cat (flying (cmd 6 (a := ⟨0x1A, 5⟩) (b := ⟨0x11, 59⟩))) = .next t ∧
      (flying (cmd 7 (a := ⟨0xD000000000000011, 64⟩))).latch.a = t.r :=
  ⟨code_1A, by decide, _, rfl, by decide⟩

/-- The two codes of VR.2, written and read back with another byte after them. -/
theorem witness_WriteThenRead :
    ([⟨0x1A, 5⟩, ⟨0x11, 9⟩] : List Codeword) ≠ [] ∧
    (∀ c, c ∈ ([⟨0x1A, 5⟩, ⟨0x11, 9⟩] : List Codeword) → CompleteCode c ∧ Canonical c) ∧
    (([⟨0x1A, 5⟩, ⟨0x11, 9⟩] : List Codeword).map Codeword.length).sum ≤ 64 ∧
    (⟨0x3411, 14⟩ : Codeword) = ([⟨0x1A, 5⟩, ⟨0x11, 9⟩] : List Codeword).foldr concat Codeword.zero ∧
    ((⟨0x3411, 14⟩ : Codeword).length + 7) / 8 ≤ (cmd 9 (s0 := 2)).s0.toNat ∧
    ∃ t, exec .write (flying (cmd 9 (a := ⟨0x3411, 14⟩) (s0 := 2))) = .next t ∧
      (∀ i : Fin 8, i.val < t.rScl.toNat → (#v[0x0B, 0x22, 0xFF, 0, 0, 0, 0, 0] : Lanes)[i] = t.bout[i]) ∧
      t.rScl.toNat ≤ (cmd 10 (s0 := 3)).s0.toNat ∧ (cmd 10 (s0 := 3)).s0.toNat ≤ 8 := by
  refine ⟨by decide, fun c hc => ?_, by decide, by decide, by decide, _, rfl, by decide +kernel, by decide, by decide⟩
  have hc' : c = ⟨0x1A, 5⟩ ∨ c = ⟨0x11, 9⟩ := by simpa using hc
  rcases hc' with rfl | rfl
  · exact ⟨code_1A, by decide⟩
  · exact ⟨code_11, by decide⟩

end Sys2Proof.Tests
end

section
/-! Proofs of the statements about the scope's open parameter ENC_LIMIT (spec 00_scope.md R11): ENC under either of its
two values, and what every edge leaves of it. -/

namespace Sys2Proof.Proofs

open Sys2Proof.Machine Sys2Proof.Safety Sys2Proof.Laws

/-! ENC, for a unit built with any ENC_LIMIT. -/

theorem encResult_of_lt {limit : Config.EncLimit} {l : Command} (hi : Bool) (h : s0Nat l < encLimitValue limit) :
    encResult limit hi l = okR (enc (s0Nat l) hi) := if_neg (Nat.not_le.2 h)

theorem encResult_of_ge {limit : Config.EncLimit} {l : Command} (hi : Bool) (h : encLimitValue limit ≤ s0Nat l) :
    encResult limit hi l = .contract .encRange := if_pos h

/-- The encoder's output is the code of its value: width `prefixWidth v`, payload the distance from CCT[k-1] (R91). -/
theorem enc_encodesTo {v : Nat} (hi : Bool) (h : v < cct Config.K) : EncodesTo v hi (enc v hi) := by
  obtain ⟨hk1, hk31, _, _⟩ := prefixWidth_spec h
  obtain ⟨hoffset, hvalue⟩ := offset_spec h
  exact ⟨prefixWidth v, v - cct (prefixWidth v - 1), hk1, hk31, hoffset, hvalue, enc_canonical hi h, enc_codeLayout hi h⟩

/-- Below the unit's ENC_LIMIT, ENC completes OK with the value's code in R (R92). -/
theorem exec_enc_of_lt (hi : Bool) {s : State} (h : s.latch.s0.toNat < encLimitValue s.encLimit) :
    ∃ t, exec (.enc hi) s = .next t ∧ CompletesWithR s t ∧ EncodesTo s.latch.s0.toNat hi t.r := by
  have hresult : commandResult s.encLimit (.enc hi) s.latch = okR (enc (s0Nat s.latch) hi) := encResult_of_lt hi h
  obtain ⟨t, ht, hok, hr⟩ := exec_okR hresult
  refine ⟨t, ht, hok, ?_⟩
  rw [hr]
  exact enc_encodesTo hi (lt_cct_of_lt_encLimitValue h)

/-- At or above the unit's ENC_LIMIT, ENC is the contract violation ENC_RANGE (R90, R92). -/
theorem exec_enc_of_ge (hi : Bool) {s : State} (h : encLimitValue s.encLimit ≤ s.latch.s0.toNat) :
    ∃ t, exec (.enc hi) s = .next t ∧ ViolatesContract s t 4 :=
  exec_contract (i := .enc hi) (encResult_of_ge hi h)

/-- Settles O48: the general bounds of ENC, taken at a unit built with CCT[K] - 1. -/
theorem encLimitIsAParameter : Obligations.EncLimitIsAParameter := by
  refine ⟨rfl, rfl, fun hi s hlimit => ?_⟩
  have hbound : encLimitValue s.encLimit = 4294967293 := by rw [hlimit, encLimitValue_cctKMinusOne]
  rw [← hbound]
  exact ⟨exec_enc_of_lt hi, exec_enc_of_ge hi⟩

/-! The parameter at every edge. -/

/-- Whatever it finds in the latch, the completion edge is the one operation `complete` (R138). -/
theorem completionEdge_eq_complete (s : State) : ∃ c, completionEdge s = .next (complete s c) := by
  rcases completionEdge_cases s with ⟨_, h⟩ | ⟨i, _, _, h⟩ | ⟨e, _, _, h⟩
  · exact ⟨.rejected, h⟩
  · exact ⟨commandResult s.encLimit i s.latch, h.trans (exec_eq i s)⟩
  · exact ⟨.contract (illegalCause e), h⟩

/-- A unit keeps its ENC_LIMIT over each of the five kinds of edge. -/
theorem step_encLimit {s t : State} (h : step s = .next t) : t.encLimit = s.encLimit := by
  rcases step_cases s with ⟨_, hreset⟩ | ⟨_, _, n, _, hwait⟩ | ⟨_, _, _, hcompletion⟩ | ⟨_, _, _, haccept⟩ | ⟨_, _, _, hidle⟩
  · cases hreset.symm.trans h
    exact resetUnit_encLimit s
  · cases hwait.symm.trans h
    exact waitEdge_encLimit s n
  · obtain ⟨c, hc⟩ := completionEdge_eq_complete s
    cases (hcompletion.trans hc).symm.trans h
    exact complete_encLimit s c
  · cases haccept.symm.trans h
    exact accept_encLimit s
  · cases hidle.symm.trans h
    rfl

/-- Settles O49: the reset value by its law, every edge by `step_encLimit`. -/
theorem encLimitIsFixed : Obligations.EncLimitIsFixed :=
  ⟨reset_encLimit, fun _ _ => step_encLimit⟩

end Sys2Proof.Proofs
end

section
/-! What a command's completion can hand to the result registers, and when two latches give one completion (spec
10_state.md R25 to R31, R39; 40_codeword.md R87). -/

namespace Sys2Proof.Proofs

open Sys2Proof.Machine Sys2Proof.Safety Sys2Proof.Laws

/-! The outcome of one command. -/

/-- An outcome command `i` may have: it is not REJECTED, which is decided before the command (R143), the codewords it
writes are canonical (R87), and every register the command does not produce is zero (R28 to R31, R39). -/
structure CommandOutcome (i : Instr) (c : Completion) : Prop where
  notRejected : c ≠ .rejected
  rCanonical : Canonical (resultsOf c).r
  qCanonical : Canonical (resultsOf c).q
  rUnproduced : writesR i = false → (resultsOf c).r = Codeword.zero
  qUnproduced : writesQ i = false → (resultsOf c).q = Codeword.zero
  scalarUnproduced : writesScalar i = false → (resultsOf c).rScl = 0
  lanesUnproduced : writesLanes i = false → (resultsOf c).bout = zeroLanes

section Outcomes

variable {i : Instr}

/-- An outcome that writes only zeros suits every command. -/
theorem CommandOutcome.of_zero {c : Completion} (hc : c ≠ .rejected) (hzero : resultsOf c = Results.zero) :
    CommandOutcome i c where
  notRejected := hc
  rCanonical := hzero ▸ canonical_zero
  qCanonical := hzero ▸ canonical_zero
  rUnproduced := fun _ => hzero ▸ rfl
  qUnproduced := fun _ => hzero ▸ rfl
  scalarUnproduced := fun _ => hzero ▸ rfl
  lanesUnproduced := fun _ => hzero ▸ rfl

theorem outcome_contract (cause : ContractCause) : CommandOutcome i (.contract cause) := .of_zero nofun rfl

theorem outcome_malformed (cause : MalformedCause) : CommandOutcome i (.malformed cause) := .of_zero nofun rfl

theorem outcome_nospace : CommandOutcome i .nospace := .of_zero nofun rfl

/-- An OK outcome with R, R_SCL and BOUT, for the command that produces those that are not zero. -/
theorem outcome_ok {res : Results} (hr : Canonical res.r) (hq : Canonical res.q)
    (hr0 : writesR i = false → res.r = Codeword.zero) (hq0 : writesQ i = false → res.q = Codeword.zero)
    (hn0 : writesScalar i = false → res.rScl = 0) (hb0 : writesLanes i = false → res.bout = zeroLanes) :
    CommandOutcome i (.ok res) := ⟨nofun, hr, hq, hr0, hq0, hn0, hb0⟩

theorem outcome_okR {c : Codeword} (hi : writesR i = true) (hc : Canonical c) : CommandOutcome i (okR c) :=
  outcome_ok hc canonical_zero (by simp [hi]) (fun _ => rfl) (fun _ => rfl) fun _ => rfl

theorem outcome_okScalar (n : Nat) (hi : writesScalar i = true) : CommandOutcome i (okScalar n) :=
  outcome_ok canonical_zero canonical_zero (fun _ => rfl) (fun _ => rfl) (by simp [hi]) fun _ => rfl

/-- After the length check a command computes from a canonical operand (R81, R82). -/
theorem outcome_withA {body : Codeword → Completion} (l : Command)
    (h : ∀ c, Canonical c → CommandOutcome i (body c)) : CommandOutcome i (withA l body) := by
  rcases withA_cases l body with ⟨ha, hbody⟩ | ⟨_, hbad⟩
  · exact hbody ▸ h _ (canonical_canon ha)
  · exact hbad ▸ outcome_contract _

theorem outcome_withAB {body : Codeword → Codeword → Completion} (l : Command)
    (h : ∀ c d, Canonical c → Canonical d → CommandOutcome i (body c d)) : CommandOutcome i (withAB l body) := by
  rcases withAB_cases l body with ⟨ha, hb, hbody⟩ | ⟨_, hbad⟩
  · exact hbody ▸ h _ _ (canonical_canon ha) (canonical_canon hb)
  · exact hbad ▸ outcome_contract _

end Outcomes

/-! Each command. -/

theorem encResult_outcome (limit : Config.EncLimit) (hi : Bool) (l : Command) :
    CommandOutcome (.enc hi) (encResult limit hi l) := by
  rcases Nat.lt_or_ge (s0Nat l) (encLimitValue limit) with h | h
  · rw [encResult_of_lt hi h]
    exact outcome_okR rfl (enc_canonical hi (lt_cct_of_lt_encLimitValue h))
  · rw [encResult_of_ge hi h]
    exact outcome_contract _

theorem clenResult_outcome (l : Command) : CommandOutcome .clen (clenResult l) := by
  refine outcome_withA l fun c _ => ?_
  split_ifs
  · exact outcome_contract _
  · exact outcome_malformed _
  · exact outcome_okScalar _ rfl

theorem decResult_outcome (l : Command) : CommandOutcome .dec (decResult l) := by
  refine outcome_withA l fun c _ => ?_
  split_ifs
  · exact outcome_okScalar _ rfl
  · exact outcome_contract _

theorem leadResult_outcome (l : Command) : CommandOutcome .lead (leadResult l) := by
  refine outcome_withA l fun c _ => ?_
  by_cases hempty : c.length = 0
  · rw [if_pos hempty]
    exact outcome_contract _
  · rw [if_neg hempty]
    exact outcome_okScalar _ rfl

theorem eqResult_outcome (l : Command) : CommandOutcome .eq (eqResult l) :=
  outcome_withAB l fun _ _ _ _ => outcome_okScalar _ rfl

theorem catResult_outcome (l : Command) : CommandOutcome .cat (catResult l) := by
  refine outcome_withAB l fun a b ha hb => ?_
  split_ifs with hover
  · exact outcome_contract _
  · exact outcome_okR rfl (concat_canonical ha hb (Nat.le_of_not_lt hover))

theorem splitResult_outcome (l : Command) : CommandOutcome .split (splitResult l) := by
  refine outcome_withA l fun c hc => ?_
  dsimp only
  split_ifs with _ hfit
  · exact outcome_malformed _
  · exact outcome_malformed _
  · obtain ⟨hr, hq⟩ := splitAt_canonical hc (Nat.le_of_not_lt hfit)
    exact outcome_ok hr hq nofun nofun (fun _ => rfl) fun _ => rfl

theorem alignResult_outcome (l : Command) : CommandOutcome .align (alignResult l) :=
  outcome_withA l fun _ hc => outcome_okR rfl (align_canonical hc)

theorem writeResult_outcome (l : Command) : CommandOutcome .write (writeResult l) := by
  refine outcome_withA l fun c _ => ?_
  split_ifs
  · exact outcome_nospace
  · exact outcome_ok canonical_zero canonical_zero (fun _ => rfl) (fun _ => rfl) nofun nofun

/-- READ uses no more bits than the lanes it reads hold (R127). -/
theorem locateCodes_le (l : Command) {m used : Nat}
    (h : locateCodes (accumulate (sourceBytes l)) (8 * lanesRead l) m 0 = .ok used) : used ≤ 8 * lanesRead l := by
  rcases locateCodes_cases (fun _ => accumulate_streamBit l) m 0 (Nat.zero_le _) with
    ⟨runs, _, hcodes, hok⟩ | ⟨_, _, _, herror⟩ | ⟨_, _, _, herror⟩
  · cases hok.symm.trans h
    exact bitsUsed_le (Nat.zero_le _) hcodes
  · cases herror.symm.trans h
  · cases herror.symm.trans h

/-- The bits READ gathers are canonical: its accumulator holds nothing above the lanes it reads (R128). -/
theorem gathered_canonical (l : Command) {used : Nat} (h : used ≤ 8 * lanesRead l) :
    Canonical (Codeword.ofLen (shr (accumulate (sourceBytes l)) (8 * lanesRead l - used)) used) := by
  have h8 : lanesRead l ≤ 8 := Nat.min_le_right _ _
  refine canonical_ofLen (by omega) fun j hj => ?_
  rw [shr_getLsbD]
  exact accumulate_getLsbD_of_ge l (by omega)

theorem readResult_outcome (l : Command) : CommandOutcome .read (readResult l) := by
  unfold readResult
  split_ifs
  · exact outcome_malformed _
  · exact outcome_malformed _
  · dsimp only
    split
    next => exact outcome_malformed _
    next used hused =>
      exact outcome_ok (gathered_canonical l (locateCodes_le l hused)) canonical_zero nofun (fun _ => rfl) nofun
        fun _ => rfl

/-- Every command, whatever its operands, has one of its outcomes. -/
theorem commandResult_outcome (limit : Config.EncLimit) (l : Command) :
    ∀ i : Instr, CommandOutcome i (commandResult limit i l)
  | .enc hi => encResult_outcome limit hi l
  | .clen => clenResult_outcome l
  | .dec => decResult_outcome l
  | .lead => leadResult_outcome l
  | .eq => eqResult_outcome l
  | .cat => catResult_outcome l
  | .split => splitResult_outcome l
  | .align => alignResult_outcome l
  | .write => writeResult_outcome l
  | .read => readResult_outcome l

/-- The outcomes that write anything but zeros are the OK ones (R39). -/
theorem resultsOf_of_code_ne {c : Completion} (h : completionCode c ≠ 0) : resultsOf c = Results.zero := by
  cases c with
  | ok res => exact absurd rfl h
  | malformed | nospace | contract | rejected => rfl

/-- A failed completion leaves every result register zero (R39). -/
theorem complete_resultsZero (s : State) {c : Completion} (h : completionCode c ≠ 0) : ResultsZero (complete s c) := by
  simp [ResultsZero, resultsOf_of_code_ne h]

/-- Settles O21: the outcome of the command, read in the registers. -/
theorem unproducedResultsAreZero : Obligations.UnproducedResultsAreZero := by
  intro i s t h
  obtain rfl := exec_next h
  have houtcome := commandResult_outcome s.encLimit s.latch i
  refine ⟨fun hcode => ?_, houtcome.rUnproduced, houtcome.qUnproduced, houtcome.scalarUnproduced,
    houtcome.lanesUnproduced⟩
  rw [complete_status, statusCode_statusAfter] at hcode
  exact complete_resultsZero s hcode

/-! The ports a command reads (R27). -/

theorem withA_congr {l l' : Command} (ha : l.a = l'.a) (body : Codeword → Completion) :
    withA l body = withA l' body := by simp only [withA, ha]

theorem withAB_congr {l l' : Command} (ha : l.a = l'.a) (hb : l.b = l'.b) (body : Codeword → Codeword → Completion) :
    withAB l body = withAB l' body := by simp only [withAB, ha, hb]

/-- READ takes the same bytes from lanes that agree below min(S0, 8). -/
theorem sourceBytes_congr {l l' : Command} (hs0 : l.s0 = l'.s0)
    (hbin : ∀ i, i < min l.s0.toNat 8 → l.bin.toList.getD i 0 = l'.bin.toList.getD i 0) :
    sourceBytes l = sourceBytes l' := by
  have hn : lanesRead l = lanesRead l' := by simp only [lanesRead, s0Nat, hs0]
  refine List.ext_getElem (by rw [sourceBytes_length, sourceBytes_length, hn]) fun i hi _ => ?_
  rw [sourceBytes_length] at hi
  have h8 : i < 8 := Nat.lt_of_lt_of_le hi (Nat.min_le_right _ _)
  simpa [sourceBytes, h8] using hbin i hi

theorem readResult_congr {l l' : Command} (hs0 : l.s0 = l'.s0) (hs1 : l.s1 = l'.s1)
    (hbytes : sourceBytes l = sourceBytes l') : readResult l = readResult l' := by
  simp only [readResult, lanesRead, s0Nat, s1Nat, hs0, hs1, hbytes]

/-- A command's outcome is a function of the ports it reads (R27). -/
theorem commandResult_congr (limit : Config.EncLimit) {i : Instr} {l l' : Command}
    (h : ∀ p, p ∈ i.portsRead → agreesOn l l' p) : commandResult limit i l = commandResult limit i l' := by
  cases i with
  | enc hi =>
    have hs0 : l.s0 = l'.s0 := h .s0 (List.mem_singleton_self _)
    simp only [commandResult, encResult, s0Nat, hs0]
  | clen =>
    have hs0 : l.s0 = l'.s0 := h .s0 (by decide)
    simp only [commandResult, clenResult, s0Nat, hs0, withA_congr (h .a (by decide))]
  | dec => simp only [commandResult, decResult, withA_congr (h .a (by decide))]
  | lead => simp only [commandResult, leadResult, withA_congr (h .a (by decide))]
  | eq => simp only [commandResult, eqResult, withAB_congr (h .a (by decide)) (h .b (by decide))]
  | cat => simp only [commandResult, catResult, withAB_congr (h .a (by decide)) (h .b (by decide))]
  | split => simp only [commandResult, splitResult, withA_congr (h .a (by decide))]
  | align => simp only [commandResult, alignResult, withA_congr (h .a (by decide))]
  | write =>
    have hs0 : l.s0 = l'.s0 := h .s0 (by decide)
    simp only [commandResult, writeResult, s0Nat, hs0, withA_congr (h .a (by decide))]
  | read =>
    have hs0 : l.s0 = l'.s0 := h .s0 (by decide)
    exact readResult_congr hs0 (h .s1 (by decide)) (sourceBytes_congr hs0 (h .bin (by decide)))

/-- Settles O25: one outcome, completed in two units, leaves equal registers, CODE and CAUSE. -/
theorem outcomeDependsOnPortsReadOnly : Obligations.OutcomeDependsOnPortsReadOnly := by
  intro i s s' t t' hlimit hports ht ht'
  obtain rfl := exec_next ht
  obtain rfl := exec_next ht'
  rw [hlimit, commandResult_congr s'.encLimit hports]
  simp

end Sys2Proof.Proofs
end

section
/-! Proofs of the statements about the unit's state (spec 10_state.md): the tables, the state after reset, FAULT, the
latch, and the invariant over every edge. -/

namespace Sys2Proof.Proofs

open Sys2Proof.Machine Sys2Proof.Safety Sys2Proof.Laws

/-! The constant tables and the state after reset. -/

theorem cct_succ {k : Nat} (h1 : 1 ≤ k) (h31 : k ≤ 31) : cct k = cct (k - 1) + 2 ^ k := by
  obtain ⟨j, rfl⟩ := Nat.exists_eq_add_of_le' h1
  have hpos : 2 ≤ 2 ^ (j + 1) := Nat.le_self_pow (Nat.succ_ne_zero j) 2
  rw [Nat.add_sub_cancel, cct_eq h31, cct_eq (by omega), Nat.pow_succ 2 (j + 1)]
  omega

/-- Settles O1: the recurrence is read off the closed form. -/
theorem cctFollowsRecurrence : Obligations.CctFollowsRecurrence :=
  ⟨rfl, rfl, fun _ => cct_succ, fun _ => cct_eq⟩

/-- Reversing a byte twice gives it back: bit i goes to 7 - i and from there to i (R23). -/
theorem rev_rev (b : Byte) : rev (rev b) = b := by
  refine BitVec.eq_of_getLsbD_eq fun i hi => ?_
  have hback : 7 - (7 - i) = i := by omega
  rw [rev_getLsbD _ hi, rev_getLsbD _ (by omega), hback]

/-- Settles O2: the bit formula of the whole table, and `rev_rev`. -/
theorem revReversesEveryByte : Obligations.RevReversesEveryByte :=
  ⟨by decide +kernel, fun b _ => rev_getLsbD b, rev_rev⟩

/-- Settles O13: the laws of the tables, then the reset values field by field. -/
theorem resetStateIsAllZero : Obligations.ResetStateIsAllZero :=
  ⟨fun _ => cct_eq, fun b _ => rev_getLsbD b, reset_r, reset_q, reset_rScl, by decide, reset_status, statusCode_zero,
    statusCause_zero, statusFault_zero, statusBusy_zero, statusFcause_zero, by decide⟩

/-! What an edge leads to. -/

/-- What a completion edge of `s` may complete with: REJECTED exactly when FAULT = 1 (R143), and canonical codewords
(R87). -/
structure EdgeOutcome (s : State) (c : Completion) : Prop where
  rejected_iff : c = .rejected ↔ statusFault s.status = true
  rCanonical : Canonical (resultsOf c).r
  qCanonical : Canonical (resultsOf c).q

/-- With FAULT = 0 an outcome of some command is one of the edge. -/
theorem EdgeOutcome.of_command {s : State} {i : Instr} {c : Completion} (hfault : statusFault s.status = false)
    (h : CommandOutcome i c) : EdgeOutcome s c where
  rejected_iff := by simp [h.notRejected, hfault]
  rCanonical := h.rCanonical
  qCanonical := h.qCanonical

/-- The completion edge is `complete` with an outcome of the edge, whatever word the latch holds. -/
theorem completionEdge_outcome (s : State) : ∃ c, EdgeOutcome s c ∧ completionEdge s = .next (complete s c) := by
  rcases completionEdge_cases s with ⟨hfault, h⟩ | ⟨i, hfault, _, h⟩ | ⟨e, hfault, _, h⟩
  · exact ⟨.rejected, ⟨by simp [hfault], canonical_zero, canonical_zero⟩, h⟩
  · exact ⟨_, .of_command hfault (commandResult_outcome s.encLimit s.latch i), h.trans (exec_eq i s)⟩
  · exact ⟨_, .of_command (i := .clen) hfault (outcome_contract _), h⟩

/-- At its completion edge a step completes the command with an outcome of the edge. -/
theorem step_next_atCompletion {s t : State} (hs : AtCompletion s) (h : step s = .next t) :
    ∃ c, EdgeOutcome s c ∧ t = complete s c := by
  obtain ⟨c, hc, hcomplete⟩ := completionEdge_outcome s
  cases ((step_atCompletion hs).trans hcomplete).symm.trans h
  exact ⟨c, hc, rfl⟩

/-- Where a step leads: the five kinds of edge, the completion with its outcome. -/
theorem step_next_cases {s t : State} (h : step s = .next t) :
    (s.ports.rst = true ∧ t = resetUnit s) ∨
    (statusBusy s.status = true ∧ ∃ n, s.wait = n + 1 ∧ t = waitEdge s n) ∨
    (AtCompletion s ∧ ∃ c, EdgeOutcome s c ∧ t = complete s c) ∨
    (statusBusy s.status = false ∧ t = accept s) ∨
    (statusBusy s.status = false ∧ t = s) := by
  rcases step_cases s with ⟨hrst, hreset⟩ | ⟨_, hbusy, n, hn, hwait⟩ | ⟨hrst, hbusy, hw, _⟩ |
    ⟨_, hbusy, _, haccept⟩ | ⟨_, hbusy, _, hidle⟩
  · cases hreset.symm.trans h
    exact .inl ⟨hrst, rfl⟩
  · cases hwait.symm.trans h
    exact .inr (.inl ⟨hbusy, n, hn, rfl⟩)
  · have hat : AtCompletion s := ⟨hrst, hbusy, hw⟩
    exact .inr (.inr (.inl ⟨hat, step_next_atCompletion hat h⟩))
  · cases haccept.symm.trans h
    exact .inr (.inr (.inr (.inl ⟨hbusy, rfl⟩)))
  · cases hidle.symm.trans h
    exact .inr (.inr (.inr (.inr ⟨hbusy, rfl⟩)))

/-- With RST = 1 a step leads to the reset unit (R161). -/
theorem step_next_of_rst {s t : State} (hrst : s.ports.rst = true) (h : step s = .next t) : t = resetUnit s := by
  rcases step_cases s with ⟨_, hreset⟩ | ⟨hrun, _⟩ | ⟨hrun, _⟩ | ⟨hrun, _⟩ | ⟨hrun, _⟩
  · cases hreset.symm.trans h
    rfl
  all_goals simp [hrst] at hrun

/-- Settles O50: both kinds of completion are `complete`. -/
theorem completionEmptiesTheLatch : Obligations.CompletionEmptiesTheLatch := by
  constructor
  · intro s t hs h
    obtain ⟨c, _, rfl⟩ := step_next_atCompletion hs h
    exact ⟨complete_latch s c, complete_wait s c⟩
  · intro i s t h
    obtain rfl := exec_next h
    exact ⟨complete_latch s _, complete_wait s _⟩

/-! FAULT and FCAUSE (R36). -/

/-- CODE = CONTRACT names the contract violations (R34). -/
theorem completionCode_eq_three {c : Completion} : completionCode c = 3 ↔ ∃ cause, c = .contract cause := by
  cases c <;> simp [completionCode]

/-- CODE = REJECTED names the rejection (R34). -/
theorem completionCode_eq_four {c : Completion} : completionCode c = 4 ↔ c = .rejected := by
  cases c <;> simp [completionCode]

/-- A completion leaves FAULT and FCAUSE, or it is a contract violation that sets both (R36, R141). -/
theorem fault_after_cases (w : BitVec 32) (c : Completion) :
    (∃ cause, c = .contract cause ∧ faultAfter w c = true ∧ fcauseAfter w c = contractCauseBits cause) ∨
    (completionCode c ≠ 3 ∧ faultAfter w c = statusFault w ∧ fcauseAfter w c = statusFcause w) := by
  cases c with
  | contract cause => exact .inl ⟨cause, rfl, rfl, rfl⟩
  | ok | malformed | nospace | rejected => exact .inr ⟨by simp [completionCode], rfl, rfl⟩

/-- A CONTRACT completion sets FAULT and copies CAUSE to FCAUSE (R36). -/
theorem fault_of_contract {s t : State} (hs : AtCompletion s) (h : step s = .next t) (hcode : statusCode t.status = 3) :
    statusFault t.status = true ∧ statusFcause t.status = statusCause t.status := by
  obtain ⟨c, _, rfl⟩ := step_next_atCompletion hs h
  rw [complete_status, statusCode_statusAfter] at hcode
  obtain ⟨cause, rfl⟩ := completionCode_eq_three.1 hcode
  obtain ⟨_, hcause, _, hfault, hfcause, _⟩ := complete_contract s cause
  exact ⟨hfault, hfcause.trans hcause.symm⟩

/-- Without reset a faulted unit keeps FAULT and FCAUSE, and what it completes is rejected (R36, R143). -/
theorem faulted_step {s t : State} (hrst : s.ports.rst = false) (hfault : statusFault s.status = true)
    (h : step s = .next t) :
    statusFault t.status = true ∧ statusFcause t.status = statusFcause s.status ∧
    (AtCompletion s → statusCode t.status = 4) := by
  rcases step_next_cases h with ⟨hreset, _⟩ | ⟨_, n, hn, rfl⟩ | ⟨_, c, hc, rfl⟩ | ⟨hbusy, rfl⟩ | ⟨hbusy, rfl⟩
  · simp [hrst] at hreset
  · exact ⟨hfault, rfl, fun ⟨_, _, hw⟩ => by omega⟩
  · obtain rfl := hc.rejected_iff.2 hfault
    obtain ⟨hcode, _, _, hkeeps, hfcause, _⟩ := complete_rejected s
    exact ⟨hkeeps.trans hfault, hfcause, fun _ => hcode⟩
  · refine ⟨?_, ?_, fun ⟨_, hb, _⟩ => by simp [hbusy] at hb⟩
    · rw [accept_status, statusFault_statusAccepted, hfault]
    · rw [accept_status, statusFcause_statusAccepted]
  · exact ⟨hfault, rfl, fun ⟨_, hb, _⟩ => by simp [hbusy] at hb⟩

/-- With FAULT = 0, an edge is a contract completion that sets FAULT, or one after which FAULT is 0 and FCAUSE is what
it was, or 0 (R36). -/
theorem unfaulted_step {s t : State} (hfault : statusFault s.status = false) (h : step s = .next t) :
    (AtCompletion s ∧ statusCode t.status = 3 ∧ statusFault t.status = true) ∨
    (statusFault t.status = false ∧ (statusFcause t.status = statusFcause s.status ∨ statusFcause t.status = 0)) := by
  rcases step_next_cases h with ⟨_, rfl⟩ | ⟨_, n, _, rfl⟩ | ⟨hs, c, _, rfl⟩ | ⟨_, rfl⟩ | ⟨_, rfl⟩
  · exact .inr ⟨statusFault_zero, .inr statusFcause_zero⟩
  · exact .inr ⟨hfault, .inl rfl⟩
  · rcases fault_after_cases s.status c with ⟨cause, rfl, _⟩ | ⟨_, hkeeps, hfcause⟩
    · obtain ⟨hcode, _, _, hsets, _⟩ := complete_contract s cause
      exact .inl ⟨hs, hcode, hsets⟩
    · exact .inr ⟨by simp [hkeeps, hfault], .inl (by simp [hfcause])⟩
  · exact .inr ⟨by simp [hfault], .inl (by simp)⟩
  · exact .inr ⟨hfault, .inl rfl⟩

/-- If FCAUSE is 0 whenever FAULT is 0, an edge keeps it so: FAULT is cleared by reset alone, and FCAUSE with it (R36). -/
theorem fcause_zero_step {s t : State} (hs : statusFault s.status = false → statusFcause s.status = 0)
    (h : step s = .next t) (hclear : statusFault t.status = false) : statusFcause t.status = 0 := by
  cases hfault : statusFault s.status with
  | false =>
    rcases unfaulted_step hfault h with ⟨_, _, hset⟩ | ⟨_, hsame | hzero⟩
    · simp [hset] at hclear
    · exact hsame.trans (hs hfault)
    · exact hzero
  | true =>
    cases hrst : s.ports.rst with
    | false =>
      obtain ⟨hset, _⟩ := faulted_step hrst hfault h
      simp [hset] at hclear
    | true =>
      obtain rfl := step_next_of_rst hrst h
      exact statusFcause_zero

/-- Settles O23: the four sentences of R36, one lemma for the violation and one for each value of FAULT. -/
theorem faultIsStickyUntilReset : Obligations.FaultIsStickyUntilReset := by
  refine ⟨fun _ _ => fault_of_contract, fun _ _ => faulted_step, fun s t hs h ht => ?_, fun _ _ => fcause_zero_step⟩
  rcases unfaulted_step hs h with ⟨hat, hcode, _⟩ | ⟨hclear, _⟩
  · exact ⟨hat, hcode⟩
  · simp [hclear] at ht

/-! The invariant. -/

/-- Every completion writes a listed (CODE, CAUSE) pair (R35). -/
theorem completion_pairLegal (c : Completion) : (completionCode c, completionCause c) ∈ legalPairs := by
  cases c with
  | ok | nospace | rejected => simp [completionCode, completionCause, legalPairs]
  | malformed cause => cases cause <;> decide
  | contract cause => cases cause <;> decide

/-- Reset establishes the invariant, whatever it finds (R42). -/
theorem inv_resetUnit (s : State) : Inv (resetUnit s) where
  rCanonical := canonical_zero
  qCanonical := canonical_zero
  reservedZero := reservedZero_zero
  pairLegal := by simp [legalPairs]
  noFault := fun _ => by simp
  faulted := by simp
  failureZero := by simp
  latchEmpty := fun _ => ⟨rfl, rfl⟩

/-- Settles O19: the state after reset is what reset leaves. -/
theorem resetMeetsInvariant : Obligations.ResetMeetsInvariant := inv_resetUnit State.reset

/-- An edge that holds the results and the four fields of STATUS keeps the invariant while a command is in flight. -/
theorem inv_of_held {s t : State} (hs : Inv s) (hr : t.r = s.r) (hq : t.q = s.q) (hn : t.rScl = s.rScl)
    (hb : t.bout = s.bout) (hreserved : statusReservedZero t.status = true)
    (hcode : statusCode t.status = statusCode s.status) (hcause : statusCause t.status = statusCause s.status)
    (hfault : statusFault t.status = statusFault s.status) (hfcause : statusFcause t.status = statusFcause s.status)
    (hbusy : statusBusy t.status = true) : Inv t where
  rCanonical := hr ▸ hs.rCanonical
  qCanonical := hq ▸ hs.qCanonical
  reservedZero := hreserved
  pairLegal := by rw [hcode, hcause]; exact hs.pairLegal
  noFault := by rw [hcode, hfault, hfcause]; exact hs.noFault
  faulted := by rw [hcode, hcause, hfault, hfcause]; exact hs.faulted
  failureZero := by rw [hcode, ResultsZero, hr, hq, hn, hb]; exact hs.failureZero
  latchEmpty := by simp [hbusy]

theorem inv_waitEdge {s : State} (hs : Inv s) (hbusy : statusBusy s.status = true) (n : Nat) : Inv (waitEdge s n) :=
  inv_of_held hs rfl rfl rfl rfl hs.reservedZero rfl rfl rfl rfl hbusy

theorem inv_accept {s : State} (hs : Inv s) : Inv (accept s) :=
  inv_of_held hs rfl rfl rfl rfl (reservedZero_statusAccepted _) (statusCode_statusAccepted _)
    (statusCause_statusAccepted _) (statusFault_statusAccepted _) (statusFcause_statusAccepted _)
    (statusBusy_statusAccepted _)

/-- A completion keeps the invariant. FAULT and FCAUSE are the work: a violation sets both, a rejection finds them set,
and any other outcome finds FAULT = 0 and leaves it. -/
theorem inv_complete {s : State} {c : Completion} (hs : Inv s) (hc : EdgeOutcome s c) : Inv (complete s c) where
  rCanonical := hc.rCanonical
  qCanonical := hc.qCanonical
  reservedZero := reservedZero_statusAfter _ _
  pairLegal := by simpa using completion_pairLegal c
  noFault := by
    intro hfault
    rw [complete_status, statusFault_statusAfter] at hfault
    rw [complete_status, statusFcause_statusAfter, statusCode_statusAfter]
    rcases fault_after_cases s.status c with ⟨_, _, hset, _⟩ | ⟨hcode, hkeeps, hfcause⟩
    · simp [hset] at hfault
    · have hs0 : statusFault s.status = false := hkeeps.symm.trans hfault
      obtain ⟨hzero, _⟩ := hs.noFault hs0
      refine ⟨hfcause.trans hzero, hcode, fun hfour => ?_⟩
      have hs1 := hc.rejected_iff.1 (completionCode_eq_four.1 hfour)
      simp [hs0] at hs1
  faulted := by
    intro hfault
    rw [complete_status, statusFault_statusAfter] at hfault
    rw [complete_status, statusFcause_statusAfter, statusCode_statusAfter, statusCause_statusAfter]
    rcases fault_after_cases s.status c with ⟨cause, rfl, _, hfcause⟩ | ⟨_, hkeeps, hfcause⟩
    · exact ⟨hfcause ▸ completion_pairLegal (.contract cause), .inl ⟨rfl, hfcause.symm⟩⟩
    · have hs1 : statusFault s.status = true := hkeeps.symm.trans hfault
      obtain ⟨hlegal, _⟩ := hs.faulted hs1
      exact ⟨hfcause ▸ hlegal, .inr (completionCode_eq_four.2 (hc.rejected_iff.2 hs1))⟩
  failureZero := fun hcode => complete_resultsZero s (by simpa using hcode)
  latchEmpty := fun _ => ⟨rfl, rfl⟩

/-- Settles O18: the invariant over each of the five kinds of edge. -/
theorem everyEdgeKeepsInvariant : Obligations.EveryEdgeKeepsInvariant := by
  intro s t hs h
  rcases step_next_cases h with ⟨_, rfl⟩ | ⟨hbusy, n, _, rfl⟩ | ⟨_, c, hc, rfl⟩ | ⟨_, rfl⟩ | ⟨_, rfl⟩
  · exact inv_resetUnit s
  · exact inv_waitEdge hs hbusy n
  · exact inv_complete hs hc
  · exact inv_accept hs
  · exact hs

end Sys2Proof.Proofs
end

section
/-! Proofs of the statements about the command word (spec 30_encoding.md): the decoder against the encoder, the words
that decode to nothing, disassembly, and the completion edge of either kind of word. -/

namespace Sys2Proof.Proofs

open Sys2Proof.Machine Sys2Proof.Safety Sys2Proof.Laws

/-! The three fields of a command word (R63). -/

/-- Which field each bit of a word lies in. -/
theorem getLsbD_word (rsv : BitVec 11) (hi : Bool) (op : BitVec 4) (j : Nat) :
    BitVec.getLsbD (w := 16) (rsv ++ BitVec.ofBool hi ++ op) j =
      if j < 4 then op.getLsbD j else if j = 4 then hi else rsv.getLsbD (j - 5) := by
  refine BitVec.getLsbD_append.trans ?_
  rw [BitVec.getLsbD_append]
  rcases Nat.lt_trichotomy j 4 with hop | rfl | hrsv
  · simp [hop]
  · simp
  · simp [Nat.not_lt.2 hrsv.le, hrsv.ne', show ¬ j - 4 < 1 by omega, show j - 4 - 1 = j - 5 by omega]

@[simp] theorem opField_word (rsv : BitVec 11) (hi : Bool) (op : BitVec 4) :
    opField (rsv ++ BitVec.ofBool hi ++ op) = op := by
  refine BitVec.eq_of_getLsbD_eq fun j hj => ?_
  simp [opField, getLsbD_word, hj]

@[simp] theorem hiField_word (rsv : BitVec 11) (hi : Bool) (op : BitVec 4) :
    hiField (rsv ++ BitVec.ofBool hi ++ op) = hi :=
  getLsbD_word rsv hi op 4

@[simp] theorem rsvField_word (rsv : BitVec 11) (hi : Bool) (op : BitVec 4) :
    rsvField (rsv ++ BitVec.ofBool hi ++ op) = rsv := by
  refine BitVec.eq_of_getLsbD_eq fun j hj => ?_
  simp [rsvField, getLsbD_word, hj, show ¬ 5 + j < 4 by omega, show 5 + j ≠ 4 by omega]

/-- A word is its three fields. -/
theorem word_of_fields (cmd : CmdWord) : rsvField cmd ++ BitVec.ofBool (hiField cmd) ++ opField cmd = cmd := by
  refine BitVec.eq_of_getLsbD_eq fun j hj => ?_
  rw [getLsbD_word]
  rcases Nat.lt_trichotomy j 4 with hop | rfl | hrsv
  · simp [opField, hop]
  · simp [hiField]
  · simp [rsvField, Nat.not_lt.2 hrsv.le, hrsv.ne', show j - 5 < 11 by omega, Nat.add_sub_cancel' hrsv]

/-- RSV is CMD[15:5], bit by bit. -/
theorem rsvField_ne_zero {cmd : CmdWord} {j : Nat} (h5 : 5 ≤ j) (h15 : j ≤ 15) (hbit : cmd.getLsbD j = true) :
    rsvField cmd ≠ 0#11 := by
  intro hzero
  have hread : (rsvField cmd).getLsbD (j - 5) = cmd.getLsbD j := by
    have hj : j - 5 < 11 := by omega
    simp [rsvField, hj, Nat.add_sub_cancel' h5]
  simp [hzero, hbit] at hread

/-! The opcode map (R64), both ways. -/

/-- The opcodes that name no command (R67). -/
def undefinedOpcodes : List (BitVec 4) := [0x0#4, 0xB#4, 0xC#4, 0xD#4, 0xE#4, 0xF#4]

theorem instrOfOpcode_eq_none_iff : ∀ op hi, instrOfOpcode op hi = none ↔ op ∈ undefinedOpcodes := by decide

/-- The command the map finds has the opcode it was found under, and HI if that is ENC's. -/
theorem fields_of_instrOfOpcode : ∀ op hi, ∀ i ∈ instrOfOpcode op hi, opcodeOf i = op ∧ hiOf i = (op == 1#4 && hi) := by
  decide

theorem instrOfOpcode_opcodeOf (i : Instr) : instrOfOpcode (opcodeOf i) (hiOf i) = some i := by
  cases i <;> rfl

/-- Only ENC's word can have HI = 1 (R65). -/
theorem hiOf_of_opcodeOf_ne {i : Instr} (h : opcodeOf i ≠ 1#4) : hiOf i = false := by
  cases i with
  | enc hi => exact absurd rfl h
  | _ => rfl

/-! The decoder, one law for each outcome (R68). -/

theorem decode_eq_ok_iff {cmd : CmdWord} {i : Instr} : decode cmd = .ok i ↔
    instrOfOpcode (opField cmd) (hiField cmd) = some i ∧ rsvField cmd = 0#11 ∧
      (opField cmd ≠ 1#4 → hiField cmd = false) := by
  unfold decode
  cases instrOfOpcode (opField cmd) (hiField cmd) with
  | none => simp
  | some i' =>
    by_cases hrsv : rsvField cmd = 0#11
    · by_cases henc : opField cmd = 1#4
      · simp [hrsv, henc]
      · cases hhi : hiField cmd <;> simp [hrsv, henc]
    · simp [hrsv]

theorem decode_of_undefined {cmd : CmdWord} (hop : opField cmd ∈ undefinedOpcodes) : decode cmd = .error .badOpcode := by
  simp [decode, (instrOfOpcode_eq_none_iff _ (hiField cmd)).2 hop]

theorem decode_of_reserved {cmd : CmdWord} (hop : opField cmd ∉ undefinedOpcodes)
    (hbits : rsvField cmd ≠ 0#11 ∨ (opField cmd ≠ 1#4 ∧ hiField cmd = true)) : decode cmd = .error .reservedBits := by
  obtain ⟨i, hmap⟩ := Option.ne_none_iff_exists'.1 (mt (instrOfOpcode_eq_none_iff _ (hiField cmd)).1 hop)
  unfold decode
  rw [hmap]
  by_cases hrsv : rsvField cmd = 0#11
  · simp [hrsv, hbits.resolve_left (not_not_intro hrsv)]
  · simp [hrsv]

/-! Decoding and encoding. -/

/-- The decoder reads a command's word back to it. -/
theorem decode_encode (i : Instr) : decode (encode i) = .ok i :=
  decode_eq_ok_iff.2 (by simpa [encode, instrOfOpcode_opcodeOf] using hiOf_of_opcodeOf_ne)

/-- A word that decodes has the fields of its command's word: OP and HI by the opcode map, RSV and a HI outside ENC
because the decoder has checked them. -/
theorem encode_of_decode {cmd : CmdWord} {i : Instr} (h : decode cmd = .ok i) : encode i = cmd := by
  obtain ⟨hmap, hrsv, hcheck⟩ := decode_eq_ok_iff.1 h
  obtain ⟨hop, hhi⟩ := fields_of_instrOfOpcode _ _ i hmap
  have hhi' : hiOf i = hiField cmd := by
    by_cases henc : opField cmd = 1#4
    · simp [hhi, henc]
    · simp [hhi, hcheck henc]
  rw [encode, hop, hhi', ← hrsv, word_of_fields]

/-- Settles O4: the two directions; every command is well-formed, so the first holds without that premise. -/
theorem decodeAndEncodeAgree : Obligations.DecodeAndEncodeAgree :=
  ⟨fun i _ => decode_encode i, fun _ _ => encode_of_decode⟩

/-- Settles O3: a word that decodes is `encode` of one of the ten commands, ENC of either polarity. -/
theorem legalWordsAreTheEleven : Obligations.LegalWordsAreTheEleven := by
  refine ⟨decode_encode (.enc false), decode_encode (.enc true), decode_encode .clen, decode_encode .dec,
    decode_encode .lead, decode_encode .eq, decode_encode .cat, decode_encode .split, decode_encode .align,
    decode_encode .write, decode_encode .read, fun cmd i h => ?_⟩
  obtain rfl := encode_of_decode h
  cases i with
  | enc hi => cases hi <;> decide
  | _ => decide

/-! Disassembly (R78). -/

theorem disassemble_of_ok {cmd : CmdWord} {i : Instr} (h : decode cmd = .ok i) : disassemble cmd = mnemonicText i := by
  simp [disassemble, h]

theorem disassemble_of_error {cmd : CmdWord} {e : Illegal} (h : decode cmd = .error e) :
    disassemble cmd = ".illegal 0x" ++ hexWord cmd := by
  simp [disassemble, h]

/-- The assembler reads each mnemonic back to its command. -/
theorem parse_mnemonicText (i : Instr) : (tokenize (mnemonicText i).toList []).bind parseMnemonic = some (i, []) := by
  cases i with
  | enc hi => cases hi <;> decide
  | _ => decide

/-- What can be read back is written differently for different commands. -/
theorem mnemonicText_injective {i i' : Instr} (h : mnemonicText i = mnemonicText i') : i = i' := by
  have hparse := parse_mnemonicText i
  rw [h, parse_mnemonicText i'] at hparse
  simpa using hparse.symm

/-- Settles O7: equal texts are of one command, and the two words are both its `encode`. -/
theorem disassemblyIsOneToOne : Obligations.DisassemblyIsOneToOne := by
  refine ⟨fun _ _ => disassemble_of_error, fun _ _ => disassemble_of_ok, fun cmd cmd' i i' hd hd' htext => ?_⟩
  rw [disassemble_of_ok hd, disassemble_of_ok hd'] at htext
  obtain rfl := mnemonicText_injective htext
  exact (encode_of_decode hd).symm.trans (encode_of_decode hd')

/-! The completion edge of a latched word, with FAULT = 0. -/

/-- A legal word runs its command. -/
theorem step_of_decode_ok {s : State} {i : Instr} (hs : AtCompletion s) (hfault : statusFault s.status = false)
    (hd : decode s.latch.cmd = .ok i) : step s = exec i s := by
  rw [step_atCompletion hs]
  rcases completionEdge_cases s with ⟨hset, _⟩ | ⟨j, _, hj, hedge⟩ | ⟨e, _, he, _⟩
  · simp [hfault] at hset
  · cases hd.symm.trans hj
    exact hedge
  · cases hd.symm.trans he

/-- An illegal word completes with the contract violation of its cause (R141). -/
theorem step_of_decode_error {s : State} {e : Illegal} (hs : AtCompletion s) (hfault : statusFault s.status = false)
    (hd : decode s.latch.cmd = .error e) :
    ∃ t, step s = .next t ∧ ViolatesContract s t (contractCauseBits (illegalCause e)) := by
  rw [step_atCompletion hs]
  rcases completionEdge_cases s with ⟨hset, _⟩ | ⟨i, _, hi, _⟩ | ⟨e', _, he, hedge⟩
  · simp [hfault] at hset
  · cases hd.symm.trans hi
  · cases hd.symm.trans he
    exact ⟨_, hedge, complete_contract s _⟩

/-- Settles O8: the completion edge of a legal word, whose command is always well-formed. -/
theorem stepRunsDecodedCommand : Obligations.StepRunsDecodedCommand :=
  fun _ _ hs hfault hd _ => step_of_decode_ok hs hfault hd

/-- Settles O5: the decoder looks at OP first. -/
theorem undefinedOpcodeViolatesContract : Obligations.UndefinedOpcodeViolatesContract :=
  fun _ hs hfault hop => step_of_decode_error hs hfault (decode_of_undefined hop)

/-- Settles O6: a bit of CMD[15:5] makes RSV nonzero, and CMD[4] is HI. -/
theorem reservedBitViolatesContract : Obligations.ReservedBitViolatesContract := by
  intro s hs hfault hop hbits
  refine step_of_decode_error hs hfault (decode_of_reserved hop ?_)
  rcases hbits with ⟨j, h5, h15, hbit⟩ | hhi
  · exact .inl (rsvField_ne_zero h5 h15 hbit)
  · exact .inr hhi

end Sys2Proof.Proofs
end

section
/-! Proofs of the statements about codewords and the predicates on them (spec 40_codeword.md): the length check, the
zero invariant of results, LEAD and EQ. -/

namespace Sys2Proof.Proofs

open Sys2Proof.Machine Sys2Proof.Safety Sys2Proof.Laws

/-! The zero invariant of what a completion writes (R87). -/

/-- Settles O20: an edge's outcome and a command's outcome both write canonical codewords. -/
theorem producedCodewordsAreCanonical : Obligations.ProducedCodewordsAreCanonical := by
  constructor
  · intro s t hs h
    obtain ⟨c, hc, rfl⟩ := step_next_atCompletion hs h
    refine ⟨hc.rCanonical, hc.qCanonical, fun hcode => ?_⟩
    rw [complete_status, statusCode_statusAfter] at hcode
    obtain ⟨hr, hq, _⟩ := complete_resultsZero s hcode
    exact ⟨hr, hq⟩
  · intro i s t h
    obtain rfl := exec_next h
    have houtcome := commandResult_outcome s.encLimit s.latch i
    exact ⟨houtcome.rCanonical, houtcome.qCanonical, houtcome.rUnproduced, houtcome.qUnproduced⟩

/-! The length check (R81). -/

/-- Every command that reads A makes the check of A its first. -/
theorem commandResult_of_a_gt (limit : Config.EncLimit) {i : Instr} {l : Command} (hread : Port.a ∈ i.portsRead)
    (h : 64 < l.a.length) : commandResult limit i l = .contract .badLength := by
  cases i with
  | enc | read => simp [Instr.portsRead] at hread
  | clen | dec | lead | split | align | write =>
    unfold commandResult
    exact withA_of_gt h _
  | eq | cat =>
    unfold commandResult
    exact withAB_of_gt (.inl h) _

/-- Every command that reads B reads A too, and checks both lengths before anything else. -/
theorem commandResult_of_b_gt (limit : Config.EncLimit) {i : Instr} {l : Command} (hread : Port.b ∈ i.portsRead)
    (h : 64 < l.b.length) : commandResult limit i l = .contract .badLength := by
  cases i with
  | eq | cat =>
    unfold commandResult
    exact withAB_of_gt (.inr h) _
  | _ => simp [Instr.portsRead] at hread

theorem exec_of_a_gt {i : Instr} {s : State} (hread : Port.a ∈ i.portsRead) (h : 64 < s.latch.a.length) :
    ∃ t, exec i s = .next t ∧ ViolatesContract s t 3 :=
  exec_contract (commandResult_of_a_gt s.encLimit hread h)

theorem exec_of_b_gt {i : Instr} {s : State} (hread : Port.b ∈ i.portsRead) (h : 64 < s.latch.b.length) :
    ∃ t, exec i s = .next t ∧ ViolatesContract s t 3 :=
  exec_contract (commandResult_of_b_gt s.encLimit hread h)

/-- Settles O24: an illegal word fails at decode; the readers of A and of B are read off the table of R27. -/
theorem badLengthComesFirst : Obligations.BadLengthComesFirst := by
  refine ⟨fun s e hs hfault hd => ?_, fun i => ?_, fun i => ?_,
    fun i s => ⟨exec_of_a_gt, fun hread _ => exec_of_b_gt hread⟩⟩
  · cases e with
    | badOpcode | reservedBits => exact step_of_decode_error hs hfault hd
  · cases i <;> simp [Instr.portsRead]
  · cases i <;> simp [Instr.portsRead]

/-! LEAD (R85, R86). -/

/-- The bit LEAD reads lies below the length, so canonicalisation leaves it. -/
theorem leadBit_canon {c : Codeword} (h : 1 ≤ c.length) : leadBit (canon c) = c.val.getLsbD (c.length - 1) := by
  have hlast : c.length - 1 < c.length := Nat.sub_lt h Nat.one_pos
  simp [leadBit, bitAt, hlast]

theorem leadResult_of_pos {l : Command} (hpos : 1 ≤ l.a.length) (hlen : l.a.length ≤ 64) :
    leadResult l = okScalar (if l.a.val.getLsbD (l.a.length - 1) then 1 else 0) := by
  rw [leadResult, withA_of_le hlen, canon_length, if_neg (Nat.ne_of_gt hpos), leadBit_canon hpos]

theorem leadResult_of_empty {l : Command} (hempty : l.a.length = 0) : leadResult l = .contract .emptyCodeword := by
  rw [leadResult, withA_of_le (by omega), canon_length, if_pos hempty]

/-- Settles O29: one law of LEAD for each range of lengths. -/
theorem leadReadsTheFirstBit : Obligations.LeadReadsTheFirstBit := by
  refine ⟨decode_encode .lead, fun s => ⟨fun hpos hlen => ?_, fun hempty => ?_, exec_of_a_gt (by decide)⟩⟩
  · exact exec_okScalar (i := .lead) (by split_ifs <;> decide) (leadResult_of_pos hpos hlen)
  · exact exec_contract (i := .lead) (leadResult_of_empty hempty)

/-! EQ (R83, R84). -/

/-- Two codewords have one canonical form when their lengths and their significant bits agree (R82). -/
theorem canon_eq_canon_iff (a b : Codeword) : canon a = canon b ↔
    a.length = b.length ∧ ∀ j, j < a.length → a.val.getLsbD j = b.val.getLsbD j := by
  constructor
  · intro h
    have hlen : (canon a).length = (canon b).length := congrArg Codeword.length h
    rw [canon_length, canon_length] at hlen
    refine ⟨hlen, fun j hj => ?_⟩
    have hbit : bitAt a j = bitAt b j := by rw [← canon_getLsbD, h, canon_getLsbD]
    simpa [bitAt, hj, hlen ▸ hj] using hbit
  · rintro ⟨hlen, hbits⟩
    refine codeword_ext hlen fun j => ?_
    rw [canon_getLsbD, canon_getLsbD]
    by_cases hj : j < a.length
    · simp [bitAt, hbits j hj, hlen]
    · rw [bitAt_of_ge (Nat.le_of_not_lt hj), bitAt_of_ge (hlen ▸ Nat.le_of_not_lt hj)]

theorem eqResult_of_le {l : Command} (ha : l.a.length ≤ 64) (hb : l.b.length ≤ 64) :
    eqResult l = okScalar (if equalCodewords (canon l.a) (canon l.b) then 1 else 0) := withAB_of_le ha hb _

/-- With both lengths in range EQ completes OK with the answer of its comparison. -/
theorem exec_eq_of_le {s : State} (ha : s.latch.a.length ≤ 64) (hb : s.latch.b.length ≤ 64) :
    ∃ t, exec .eq s = .next t ∧
      CompletesWithScalar s t (if equalCodewords (canon s.latch.a) (canon s.latch.b) then 1 else 0) :=
  exec_okScalar (i := .eq) (by split_ifs <;> decide) (eqResult_of_le ha hb)

/-- Settles O30: the answer of the comparison, read in the significant bits by `canon_eq_canon_iff`. -/
theorem eqComparesSignificantBits : Obligations.EqComparesSignificantBits := by
  refine ⟨decode_encode .eq, fun s => ⟨fun ha hb => ⟨fun hlen hbits => ?_, fun hdiffer => ?_⟩, ?_⟩⟩
  · have hequal := (equalCodewords_iff _ _).2 ((canon_eq_canon_iff _ _).2 ⟨hlen, hbits⟩)
    have hanswer := exec_eq_of_le ha hb
    rwa [if_pos hequal] at hanswer
  · have hunequal := mt (fun h => (canon_eq_canon_iff _ _).1 ((equalCodewords_iff _ _).1 h)) hdiffer
    have hanswer := exec_eq_of_le ha hb
    rwa [if_neg hunequal] at hanswer
  · rintro (ha | hb)
    · exact exec_of_a_gt (by decide) ha
    · exact exec_of_b_gt (by decide) hb

/-- A codeword encodes at most one value in at most one polarity: its length gives the width, its marker the polarity
and its payload the offset (30_encoding.md R71). -/
theorem encodesTo_unique {v v' : Nat} {hi hi' : Bool} {c : Codeword} (h : EncodesTo v hi c) (h' : EncodesTo v' hi' c) :
    v = v' ∧ hi = hi' := by
  obtain ⟨k, offset, _, _, _, hvalue, _, hlen, _, hmarker, hoffset⟩ := h
  obtain ⟨k', offset', _, _, _, hvalue', _, hlen', _, hmarker', hoffset'⟩ := h'
  obtain rfl : k = k' := by omega
  constructor
  · rw [hvalue, hvalue', ← hoffset, ← hoffset']
  · exact Bool.not_inj (hmarker.symm.trans hmarker')

/-- The encoder is one-to-one on the encodable values, polarity included (41_encoder.md R91). -/
theorem enc_eq_enc_iff {v v' : Nat} {hi hi' : Bool} (hv : v < cct Config.K) (hv' : v' < cct Config.K) :
    enc v hi = enc v' hi' ↔ v = v' ∧ hi = hi' := by
  constructor
  · exact fun h => encodesTo_unique (enc_encodesTo hi hv) (h ▸ enc_encodesTo hi' hv')
  · rintro ⟨rfl, rfl⟩
    rfl

/-- Settles O31: EQ's comparison is equality of canonical forms, and the encoder is one-to-one into them. -/
theorem eqIsAnEquivalence : Obligations.EqIsAnEquivalence := by
  refine ⟨fun a => (equalCodewords_iff _ _).2 rfl, fun a b => ?_, fun a b c hab hbc => ?_,
    fun a b => equalCodewords_iff _ _, fun v v' hi hi' hv hv' => ?_⟩
  · rw [Bool.eq_iff_iff, equalCodewords_iff, equalCodewords_iff]
    exact eq_comm
  · rw [equalCodewords_iff] at hab hbc ⊢
    exact hab.trans hbc
  · rw [← encLimitValue_cctK] at hv hv'
    rw [equalCodewords_iff, canon_of_canonical (enc_canonical hi hv), canon_of_canonical (enc_canonical hi' hv')]
    exact enc_eq_enc_iff hv hv'

end Sys2Proof.Proofs
end

section
/-! Proofs of the statements about the encoder (spec 41_encoder.md): ENC's word, its code and its range, and the two
round trips through DEC and LEAD (R94, R106). -/

namespace Sys2Proof.Proofs

open Sys2Proof.Machine Sys2Proof.Safety Sys2Proof.Laws

/-! ENC's two words (R64, R92). -/

/-- The mask 0xFFEF leaves out bit 4 of a word and nothing else. -/
theorem word_eq_of_masked_eq {x y : CmdWord} (hmasked : x &&& 0xFFEF = y &&& 0xFFEF)
    (hbit4 : x.getLsbD 4 = y.getLsbD 4) : x = y := by
  have hmask : ∀ j : Fin 16, j ≠ 4 → (0xFFEF : CmdWord).getLsbD j = true := by decide
  refine BitVec.eq_of_getLsbD_eq fun j hj => ?_
  by_cases h4 : j = 4
  · rw [h4, hbit4]
  · have hbit := congrArg (BitVec.getLsbD · j) hmasked
    have hone := hmask ⟨j, hj⟩ (Fin.ne_of_val_ne h4)
    simpa only [BitVec.getLsbD_and, hone, Bool.and_true] using hbit

theorem encode_enc_masked (hi : Bool) : encode (.enc hi) &&& 0xFFEF = 0x0001 ∧ (encode (.enc hi)).getLsbD 4 = hi := by
  cases hi <;> decide

theorem decode_of_masked_enc {cmd : CmdWord} (h : cmd &&& 0xFFEF = 0x0001) :
    decode cmd = .ok (.enc (cmd.getLsbD 4)) := by
  obtain ⟨hmasked, hbit4⟩ := encode_enc_masked (cmd.getLsbD 4)
  have hword : cmd = encode (.enc (cmd.getLsbD 4)) := word_eq_of_masked_eq (h.trans hmasked.symm) hbit4.symm
  exact (congrArg decode hword).trans (decode_encode _)

/-- Settles O26: the words by `decode_of_masked_enc`, the general bounds of ENC taken at the spec's ENC_LIMIT. -/
theorem encLaysOutTheCode : Obligations.EncLaysOutTheCode := by
  refine ⟨fun _ => decode_of_masked_enc, fun hi s hlimit => ?_⟩
  have hbound : encLimitValue s.encLimit = 4294967294 := by rw [hlimit, encLimitValue_cctK]
  rw [← hbound]
  exact ⟨exec_enc_of_lt hi, exec_enc_of_ge hi⟩

/-! Values under a mask. -/

/-- The low n bits of a value, as a number. -/
theorem and_mask_toNat (v : CodeVal) (n : Nat) : (v &&& mask n).toNat = v.toNat % 2 ^ n := by
  refine Nat.eq_of_testBit_eq fun i => ?_
  rw [Nat.testBit_mod_two_pow, BitVec.testBit_toNat, BitVec.testBit_toNat, BitVec.getLsbD_and, mask_getLsbD]
  by_cases h : i < 64
  · rw [decide_eq_true h, Bool.true_and, Bool.and_comm]
  · rw [BitVec.getLsbD_of_ge _ _ (Nat.le_of_not_lt h), Bool.false_and, Bool.and_false]

/-- Canonicalisation keeps every part of the value below the length (R82). -/
theorem canon_toNat_mod {c : Codeword} {k : Nat} (h : k ≤ c.length) :
    (canon c).val.toNat % 2 ^ k = c.val.toNat % 2 ^ k := by
  rw [canon, and_mask_toNat, Nat.mod_mod_of_dvd _ (Nat.pow_dvd_pow 2 h)]

/-! What a code's layout says of it (30_encoding.md R71). -/

section Layout

variable {c : Codeword} {k offset : Nat} {hi : Bool}

theorem codeLayout_offset_lt (h : CodeLayout c k hi offset) : offset < 2 ^ k := by
  obtain ⟨_, _, _, rfl⟩ := h
  exact Nat.mod_lt _ (Nat.two_pow_pos k)

/-- Every bit of a code follows from its width, polarity and payload. -/
theorem codeLayout_bitAt (h : CodeLayout c k hi offset) (j : Nat) :
    bitAt c j = if j < k then offset.testBit j else if j = k then !hi else if j ≤ 2 * k then hi else false := by
  obtain ⟨hlen, hprefix, hmarker, rfl⟩ := h
  rcases Nat.lt_trichotomy j k with hpayload | rfl | habove
  · simp [bitAt, hpayload, hlen, BitVec.testBit_toNat, show j < 2 * k + 1 by omega]
  · simpa using hmarker
  · rw [if_neg habove.not_gt, if_neg habove.ne']
    by_cases hj : j ≤ 2 * k
    · rw [if_pos hj, hprefix j habove hj]
    · rw [if_neg hj, bitAt_of_ge (by omega)]

theorem codeLayout_canon (h : CodeLayout c k hi offset) : CodeLayout (canon c) k hi offset := by
  obtain ⟨hlen, hprefix, hmarker, hoffset⟩ := h
  refine ⟨hlen, fun j h1 h2 => ?_, ?_, ?_⟩
  · rw [bitAt_canon, hprefix j h1 h2]
  · rw [bitAt_canon, hmarker]
  · rw [canon_toNat_mod (by omega), hoffset]

/-- The canonical form of a complete code is the code of the value its width and payload name (41_encoder.md R91). -/
theorem encodesTo_canon (h1 : 1 ≤ k) (h31 : k ≤ 31) (h : CodeLayout c k hi offset) :
    EncodesTo ((2 ^ k - 2) + offset) hi (canon c) :=
  ⟨k, offset, h1, h31, codeLayout_offset_lt h, rfl, canonical_canon (by have := h.1; omega), codeLayout_canon h⟩

end Layout

/-- The widths' ranges of values, from 2^k - 2 up to below 2^(k+1) - 2, do not overlap (41_encoder.md R91). -/
theorem width_unique {k k' offset offset' : Nat} (h1 : 1 ≤ k) (h1' : 1 ≤ k') (ho : offset < 2 ^ k)
    (ho' : offset' < 2 ^ k') (h : (2 ^ k - 2) + offset = (2 ^ k' - 2) + offset') : k = k' := by
  rcases Nat.lt_trichotomy k k' with hlt | heq | hgt
  · have hk : 2 ^ 1 ≤ 2 ^ k := Nat.pow_le_pow_right (by decide) h1
    have hk' : 2 ^ (k + 1) ≤ 2 ^ k' := Nat.pow_le_pow_right (by decide) hlt
    omega
  · exact heq
  · have hk' : 2 ^ 1 ≤ 2 ^ k' := Nat.pow_le_pow_right (by decide) h1'
    have hk : 2 ^ (k' + 1) ≤ 2 ^ k := Nat.pow_le_pow_right (by decide) hgt
    omega

/-- A value has one code of each polarity: the converse of `encodesTo_unique`. -/
theorem encodesTo_code_unique {v : Nat} {hi : Bool} {c c' : Codeword} (h : EncodesTo v hi c) (h' : EncodesTo v hi c') :
    c = c' := by
  obtain ⟨k, offset, h1, _, ho, hvalue, hcanonical, hlayout⟩ := h
  obtain ⟨k', offset', h1', _, ho', hvalue', hcanonical', hlayout'⟩ := h'
  obtain rfl : k = k' := width_unique h1 h1' ho ho' (hvalue.symm.trans hvalue')
  obtain rfl : offset = offset' := Nat.add_left_cancel (hvalue.symm.trans hvalue')
  refine codeword_ext (hlayout.1.trans hlayout'.1.symm) fun j => ?_
  rw [← bitAt_of_canonical hcanonical, ← bitAt_of_canonical hcanonical', codeLayout_bitAt hlayout,
    codeLayout_bitAt hlayout']

/-- The widest codes end just below the spec's ENC_LIMIT, CCT[K] (00_scope.md R11). -/
theorem encodesTo_lt {v : Nat} {hi : Bool} {c : Codeword} (h : EncodesTo v hi c) : v < 4294967294 := by
  obtain ⟨k, offset, _, h31, ho, rfl, _⟩ := h
  have hk : 2 ^ k ≤ 2 ^ 31 := Nat.pow_le_pow_right (by decide) h31
  omega

/-! DEC, LEAD and CLEN of a code (R101, R104, R105; 40_codeword.md R86). -/

section CodeOperand

variable {c : Codeword} {l : Command} {s : State} {k offset : Nat} {hi : Bool}

theorem isCode_of_codeLayout (h1 : 1 ≤ k) (h : CodeLayout c k hi offset) :
    isCode (canon c) = true := by
  have hscan := scan_of_run (run_canon (run_of_codeLayout h1 h))
  have hlen := h.1
  rw [isCode_iff, canon_length, hscan]
  omega

/-- The decoder's table entry is the first value of the code's width, and its masked bits are the payload. -/
theorem dec_of_codeLayout (h1 : 1 ≤ k) (h31 : k ≤ 31) (h : CodeLayout c k hi offset) :
    dec c = (2 ^ k - 2) + offset := by
  obtain ⟨hlen, _, _, hoffset⟩ := h
  have hwidth : (c.length - 1) / 2 = k := by omega
  rw [dec, hwidth, and_mask_toNat, hoffset, cct_eq (by omega), Nat.sub_add_cancel h1]

theorem decResult_of_codeLayout (h1 : 1 ≤ k) (h31 : k ≤ 31) (h : CodeLayout l.a k hi offset) :
    decResult l = okScalar ((2 ^ k - 2) + offset) := by
  have hlen := h.1
  rw [decResult, withA_of_le (by omega), if_pos (isCode_of_codeLayout h1 h),
    dec_of_codeLayout h1 h31 (codeLayout_canon h)]

/-- DEC of a complete code completes OK with its value in R_SCL (R105). -/
theorem exec_dec_of_codeLayout (h1 : 1 ≤ k) (h31 : k ≤ 31) (h : CodeLayout s.latch.a k hi offset) :
    ∃ t, exec .dec s = .next t ∧ CompletesWithScalar s t ((2 ^ k - 2) + offset) := by
  have hvalue := encodesTo_lt (encodesTo_canon h1 h31 h)
  exact exec_okScalar (i := .dec) (by omega) (decResult_of_codeLayout h1 h31 h)

theorem leadResult_of_codeLayout (h1 : 1 ≤ k) (h31 : k ≤ 31) (h : CodeLayout l.a k hi offset) :
    leadResult l = okScalar (if hi then 1 else 0) := by
  have hlen := h.1
  have hfirst : bitAt l.a (l.a.length - 1) = hi := h.2.1 _ (by omega) (by omega)
  rw [leadResult_of_pos (by omega) (by omega), ← hfirst, bitAt, decide_eq_true (by omega), Bool.true_and]

/-- LEAD of a complete code completes OK with its polarity in R_SCL (40_codeword.md R86). -/
theorem exec_lead_of_codeLayout (h1 : 1 ≤ k) (h31 : k ≤ 31) (h : CodeLayout s.latch.a k hi offset) :
    ∃ t, exec .lead s = .next t ∧ CompletesWithScalar s t (if hi then 1 else 0) :=
  exec_okScalar (i := .lead) (by split_ifs <;> decide) (leadResult_of_codeLayout h1 h31 h)

end CodeOperand

theorem clenResult_of_run {l : Command} {r : Nat} (hlen : l.a.length ≤ 64) (hwindow : s0Nat l ≤ 64)
    (h : RunThenMarker (bitAt l.a) (s0Nat l) r) : clenResult l = okScalar (2 * r + 1) := by
  rw [clenResult, withA_of_le hlen, if_neg (Nat.not_lt.2 hwindow), scan_of_run (run_canon h),
    if_neg (Nat.succ_ne_zero _)]

/-- CLEN of a window where a run of r bits meets a marker completes OK with 2r+1 in R_SCL (R101). -/
theorem exec_clen_of_run {s : State} {r : Nat} (hlen : s.latch.a.length ≤ 64) (hwindow : s.latch.s0.toNat ≤ 64)
    (h : RunThenMarker (bitAt s.latch.a) s.latch.s0.toNat r) :
    ∃ t, exec .clen s = .next t ∧ CompletesWithScalar s t (2 * r + 1) :=
  exec_okScalar (i := .clen) (by have := h.2.1; omega) (clenResult_of_run hlen hwindow h)

/-! The round trips. -/

/-- Settles O44: ENC's result is laid out as the code of the value, and DEC, LEAD and CLEN read that layout. -/
theorem encThenDecRoundTrip : Obligations.EncThenDecRoundTrip := by
  intro hi s u hs0
  obtain ⟨t, ht, _, k, offset, h1, h31, _, hvalue, _, hlayout⟩ := exec_enc_of_lt hi hs0
  refine ⟨t, ht, fun ha => ?_⟩
  rw [hvalue]
  rw [← ha] at hlayout ⊢
  refine ⟨exec_dec_of_codeLayout h1 h31 hlayout, exec_lead_of_codeLayout h1 h31 hlayout, fun hwindow => ?_⟩
  have hlen := hlayout.1
  have hrun := run_of_codeLayout h1 hlayout
  rw [← hwindow] at hrun
  rw [hlen]
  exact exec_clen_of_run (by omega) (by omega) hrun

/-- R_SCL read as a polarity, the way the host hands LEAD's answer to ENC (R106). -/
theorem rScl_eq_one_of_polarity {x : Scalar} {hi : Bool} (h : x.toNat = if hi then 1 else 0) : (x == 1) = hi := by
  rw [Bool.eq_iff_iff, beq_iff_eq, ← BitVec.toNat_inj, h]
  cases hi <;> decide

/-- Below the unit's ENC_LIMIT, ENC answers with the only codeword that is the code of its value (R91, R92). -/
theorem exec_enc_of_encodesTo {u : State} {v : Nat} {hi : Bool} {c : Codeword} (hs0 : u.latch.s0.toNat = v)
    (hv : v < encLimitValue u.encLimit) (hc : EncodesTo v hi c) :
    ∃ t, exec (.enc hi) u = .next t ∧ CompletesWithR u t ∧ t.r = c := by
  subst hs0
  obtain ⟨t, ht, hok, hcode⟩ := exec_enc_of_lt hi hv
  exact ⟨t, ht, hok, encodesTo_code_unique hcode hc⟩

/-- An ENC that answers with a value's code had that value and polarity: a refused value leaves the empty codeword,
which is no code, and an accepted one its own code. -/
theorem value_of_exec_enc {u t : State} {v : Nat} {hi hi' : Bool} (ht : exec (.enc hi') u = .next t)
    (hcode : EncodesTo v hi t.r) : u.latch.s0.toNat = v ∧ hi' = hi := by
  rcases Nat.lt_or_ge u.latch.s0.toNat (encLimitValue u.encLimit) with hlt | hge
  · obtain ⟨t', ht', _, hcode'⟩ := exec_enc_of_lt hi' hlt
    cases ht.symm.trans ht'
    exact encodesTo_unique hcode' hcode
  · obtain rfl := exec_next ht
    obtain ⟨k, _, _, _, _, _, _, hlen, _⟩ := hcode
    have hresult : commandResult u.encLimit (.enc hi') u.latch = .contract .encRange := encResult_of_ge hi' hge
    rw [hresult] at hlen
    simp at hlen

/-- Settles O45: the operand's canonical form is the code of the value and polarity DEC and LEAD read from it, and ENC
is one-to-one onto such codes. -/
theorem decThenEncInverse : Obligations.DecThenEncInverse := by
  rintro s ⟨k, hi, offset, h1, h31, _, hlayout⟩
  obtain ⟨d, hd, _, hvalue, _⟩ := exec_dec_of_codeLayout h1 h31 hlayout
  obtain ⟨e, he, _, hlead, _⟩ := exec_lead_of_codeLayout h1 h31 hlayout
  have hpolarity : (e.rScl == 1) = hi := rScl_eq_one_of_polarity hlead
  have hcode : EncodesTo d.rScl.toNat hi (canon s.latch.a) := hvalue ▸ encodesTo_canon h1 h31 hlayout
  refine ⟨d, e, hd, he, encodesTo_lt hcode, fun u hs0 hlimit => ?_, fun hi' u t ht hr => ?_⟩
  · rw [hpolarity]
    exact exec_enc_of_encodesTo (congrArg BitVec.toNat hs0) hlimit hcode
  · obtain ⟨hs0, hhi⟩ := value_of_exec_enc ht (hr ▸ hcode)
    exact ⟨BitVec.eq_of_toNat_eq hs0, hhi.trans hpolarity.symm⟩

end Sys2Proof.Proofs
end

section
/-! Proofs of the statements about the scanner and the decoder (spec 42_scanner_decoder.md): what scan reads and can
answer, CLEN, and DEC. -/

namespace Sys2Proof.Proofs

open Sys2Proof.Machine Sys2Proof.Safety Sys2Proof.Laws

/-! Windows: equal bits, and a run that another window shows too. -/

/-- A window without a flip is one whose bits are all equal (R98). -/
theorem noFlip_iff {bit : Nat → Bool} {w : Nat} : NoFlip bit w ↔ ∀ i j, i < w → j < w → bit i = bit j := by
  constructor
  · intro h
    have htop : ∀ i, i < w → bit i = bit (w - 1) := fun i hi => by
      have hbit := h (w - 1 - i) (by omega)
      rwa [show w - 1 - (w - 1 - i) = i by omega] at hbit
    exact fun i j hi hj => (htop i hi).trans (htop j hj).symm
  · exact fun h j hj => h _ _ (by omega) (by omega)

theorem noFlip_congr {bit bit' : Nat → Bool} {w : Nat} (hagree : ∀ i, i < w → bit i = bit' i) (h : NoFlip bit w) :
    NoFlip bit' w := by
  rw [noFlip_iff] at h ⊢
  intro i j hi hj
  rw [← hagree i hi, ← hagree j hj, h i j hi hj]

/-- A run and its marker are decided by the window's top r+1 bits, wherever and under whatever payload they stand. -/
theorem run_of_top_bits {bit bit' : Nat → Bool} {w w' r : Nat} (h : RunThenMarker bit w r) (hfit : r < w')
    (htop : ∀ j, j ≤ r → bit (w - 1 - j) = bit' (w' - 1 - j)) : RunThenMarker bit' w' r := by
  obtain ⟨h1, _, hrun, hmarker⟩ := h
  have hfirst : bit (w - 1) = bit' (w' - 1) := htop 0 (Nat.zero_le r)
  refine ⟨h1, hfit, fun j hj => ?_, ?_⟩
  · rw [← htop j hj.le, ← hfirst, hrun j hj]
  · rw [← htop r le_rfl, ← hfirst, hmarker]

/-! The scanner function (R97 to R99, R102). -/

theorem scan_eq_zero_iff {v : CodeVal} {w : Nat} : scan v w = 0 ↔ NoFlip v.getLsbD w := by
  rcases scan_cases v w with ⟨hflat, hzero⟩ | ⟨r, hrun, hlen⟩
  · exact iff_of_true hzero hflat
  · exact iff_of_false (by omega) (not_noFlip_of_run hrun)

/-- A scan that is not 0 measures a run. -/
theorem run_of_scan_ne_zero {v : CodeVal} {w : Nat} (h : scan v w ≠ 0) :
    ∃ r, RunThenMarker v.getLsbD w r ∧ scan v w = 2 * r + 1 :=
  (scan_cases v w).resolve_left fun hflat => h hflat.2

/-- Settles O41: a scan of 0 is a window without a flip, and any other a run of r bits with 1 ≤ r < w. -/
theorem scanRangeIsOddOrZero : Obligations.ScanRangeIsOddOrZero := by
  refine ⟨fun v w hw => ⟨?_, fun hne => ?_⟩, by decide, by decide⟩
  · rw [scan_eq_zero_iff, noFlip_iff]
    constructor
    · exact .inr
    · rintro (hsmall | hequal)
      · exact fun i j hi hj => by rw [show i = j by omega]
      · exact hequal
  · obtain ⟨r, ⟨h1, hr, _⟩, hlen⟩ := run_of_scan_ne_zero hne
    omega

/-- The second clause of R99: the bits down to the marker decide the scan. -/
theorem scan_eq_of_top_bits {v v' : CodeVal} {w r : Nat} (h : RunThenMarker v.getLsbD w r)
    (htop : ∀ j, j ≤ r → v.getLsbD (w - 1 - j) = v'.getLsbD (w - 1 - j)) : scan v' w = scan v w := by
  rw [scan_of_run h, scan_of_run (run_of_top_bits h h.2.1 htop)]

/-- The first clause of R99: the bits of the window decide the scan. -/
theorem scan_congr {v v' : CodeVal} {w : Nat} (hagree : ∀ i, i < w → v.getLsbD i = v'.getLsbD i) :
    scan v w = scan v' w := by
  rcases scan_cases v w with ⟨hflat, hzero⟩ | ⟨r, hrun, _⟩
  · rw [hzero, scan_of_noFlip (noFlip_congr hagree hflat)]
  · have hr := hrun.2.1
    exact (scan_eq_of_top_bits hrun fun j _ => hagree _ (by omega)).symm

/-- Settles O42: the two clauses of R99, and the window 01, whose marker announces a code of three bits. -/
theorem scanReadsPrefixAndMarkerOnly : Obligations.ScanReadsPrefixAndMarkerOnly :=
  ⟨fun _ _ _ => scan_congr, fun _ _ _ _ => scan_eq_of_top_bits, 0x1, 2, by decide, by decide⟩

/-- The left operand of a concatenation is what the result's stream begins with (43_composition.md R109). -/
theorem concat_top_bits {a b : Codeword} (ha : Canonical a) (hb : Canonical b) (h : a.length + b.length ≤ 64) {j : Nat}
    (hj : j < a.length) :
    (concat a b).val.getLsbD (a.length + b.length - 1 - j) = a.val.getLsbD (a.length - 1 - j) := by
  rw [concat_bits ha hb h, if_neg (by omega)]
  congr 1
  omega

/-- A run in the window of the left operand is the run of the concatenation's window. -/
theorem scan_concat_of_run {a b : Codeword} {r : Nat} (ha : Canonical a) (hb : Canonical b)
    (h : a.length + b.length ≤ 64) (hrun : RunThenMarker a.val.getLsbD a.length r) :
    scan (concat a b).val (a.length + b.length) = 2 * r + 1 := by
  have hr := hrun.2.1
  exact scan_of_run <| run_of_top_bits hrun (by omega) fun j hj => (concat_top_bits ha hb h (by omega)).symm

/-- Settles O43: the buffer's value is that of the concatenation, and its scan finds the run that gave c's length. -/
theorem scanOfLeadingCodeIsItsLength : Obligations.ScanOfLeadingCodeIsItsLength := by
  intro c t hc ht hscan hne hfit
  obtain ⟨r, hrun, hlen⟩ := run_of_scan_ne_zero (hscan.symm ▸ hne)
  calc scan (concat c t).val (c.length + t.length) = 2 * r + 1 := scan_concat_of_run hc ht hfit hrun
    _ = c.length := hlen.symm.trans hscan

/-! CLEN (R101). -/

theorem clenResult_of_noFlip {l : Command} (hlen : l.a.length ≤ 64) (hwindow : s0Nat l ≤ 64)
    (h : NoFlip (bitAt l.a) (s0Nat l)) : clenResult l = .malformed .noMarker := by
  rw [clenResult, withA_of_le hlen, if_neg (Nat.not_lt.2 hwindow), if_pos (scan_of_noFlip (noFlip_canon h))]

theorem clenResult_of_window_gt {l : Command} (hlen : l.a.length ≤ 64) (hwindow : 64 < s0Nat l) :
    clenResult l = .contract .badWindow := by
  rw [clenResult, withA_of_le hlen, if_pos hwindow]

/-- Settles O27: one law of CLEN for each of its outcomes, the length check first. -/
theorem clenMeasuresTheRun : Obligations.ClenMeasuresTheRun := by
  refine ⟨decode_encode .clen, fun s => ⟨fun _ => exec_clen_of_run, fun hlen hwindow hflat => ?_,
    fun hlen hwindow => ?_, exec_of_a_gt (by decide)⟩⟩
  · exact exec_malformed (i := .clen) (clenResult_of_noFlip hlen hwindow hflat)
  · exact exec_contract (i := .clen) (clenResult_of_window_gt hlen hwindow)

/-! DEC (R103 to R105). -/

/-- A run that accounts for the whole length of a codeword lays it out as a code, the converse of
`run_of_codeLayout`. -/
theorem codeLayout_of_run {c : Codeword} {k : Nat} (hlen : c.length = 2 * k + 1)
    (h : RunThenMarker (bitAt c) c.length k) :
    CodeLayout c k (bitAt c (c.length - 1)) (c.val.toNat % 2 ^ k) := by
  obtain ⟨_, _, hrun, hmarker⟩ := h
  refine ⟨hlen, fun j hlow hhigh => ?_, ?_, rfl⟩
  · have hbit := hrun (2 * k - j) (by omega)
    rwa [show c.length - 1 - (2 * k - j) = j by omega] at hbit
  · rwa [show c.length - 1 - k = k by omega] at hmarker

/-- is_code tells of an operand of any length in range whether it is one complete code (R103). -/
theorem isCode_canon_iff {c : Codeword} (hlen : c.length ≤ 64) : isCode (canon c) = true ↔ CompleteCode c := by
  constructor
  · intro hcode
    obtain ⟨_, hlong, hscan⟩ := (isCode_iff _).1 hcode
    rw [canon_length] at hlong hscan
    obtain ⟨k, hrun, hk⟩ := run_of_scan_ne_zero (v := (canon c).val) (w := c.length) (by omega)
    have h1 := hrun.1
    rw [canon_bits] at hrun
    exact ⟨k, _, _, h1, by omega, Nat.mod_lt _ (Nat.two_pow_pos k), codeLayout_of_run (by omega) hrun⟩
  · rintro ⟨k, hi, offset, h1, _, _, hlayout⟩
    exact isCode_of_codeLayout h1 hlayout

theorem decResult_of_not_code {l : Command} (hlen : l.a.length ≤ 64) (h : ¬ CompleteCode l.a) :
    decResult l = .contract .notACode := by
  rw [decResult, withA_of_le hlen, if_neg (mt (isCode_canon_iff hlen).1 h)]

/-- Settles O28: DEC's value by its law on code layouts, the rest by `isCode_canon_iff`. -/
theorem decRecoversTheValue : Obligations.DecRecoversTheValue := by
  refine ⟨decode_encode .dec, fun s => ⟨fun _ _ _ => exec_dec_of_codeLayout, fun hlen => ?_,
    fun hlen hnot => ?_, exec_of_a_gt (by decide)⟩⟩
  · exact (isCode_canon_iff hlen).symm.trans (isCode_iff (canon s.latch.a))
  · exact exec_contract (i := .dec) (decResult_of_not_code hlen hnot)

end Sys2Proof.Proofs
end

section
/-! Proofs of the statements about buffer composition (spec 43_composition.md): CAT, SPLIT, ALIGN, and SPLIT after
CAT. -/

namespace Sys2Proof.Proofs

open Sys2Proof.Machine Sys2Proof.Safety Sys2Proof.Laws

theorem bitAt_of_lt {c : Codeword} {i : Nat} (h : i < c.length) : bitAt c i = c.val.getLsbD i := by
  simp [bitAt, h]

/-- A codeword rebuilt from its own fields is itself. -/
theorem ofLen_self (c : Codeword) : Codeword.ofLen c.val c.length = c := by
  simp [Codeword.ofLen, Codeword.length]

@[simp] theorem shl_zero (v : CodeVal) : shl v 0 = v := BitVec.shiftLeft_zero v

/-! Concatenation (R109, R112). -/

section Concat

variable {a b c : Codeword}

theorem concat_low_bits (ha : Canonical a) (hb : Canonical b) (h : a.length + b.length ≤ 64) {j : Nat}
    (hj : j < b.length) : (concat a b).val.getLsbD j = b.val.getLsbD j := by
  rw [concat_bits ha hb h, if_pos hj]

theorem concat_high_bits (ha : Canonical a) (hb : Canonical b) (h : a.length + b.length ≤ 64) (j : Nat) :
    (concat a b).val.getLsbD (b.length + j) = a.val.getLsbD j := by
  rw [concat_bits ha hb h, if_neg (by omega), Nat.add_sub_cancel_left]

/-- On either side a bit is c's, b's or a's by the lengths below it, so the grouping does not matter (R112). -/
theorem concat_assoc (ha : Canonical a) (hb : Canonical b) (hc : Canonical c)
    (h : a.length + b.length + c.length ≤ 64) : concat (concat a b) c = concat a (concat b c) := by
  have hab : (concat a b).length = a.length + b.length := concat_length (by omega)
  have hbc : (concat b c).length = b.length + c.length := concat_length (by omega)
  have hcab : Canonical (concat a b) := concat_canonical ha hb (by omega)
  have hcbc : Canonical (concat b c) := concat_canonical hb hc (by omega)
  refine codeword_ext ?_ fun j => ?_
  · rw [concat_length (by omega), hab, concat_length (by omega), hbc, Nat.add_assoc]
  · rw [concat_bits hcab hc (by omega), concat_bits ha hcbc (by omega), concat_bits ha hb (by omega),
      concat_bits hb hc (by omega), hbc]
    rcases Nat.lt_or_ge j c.length with hj | hj
    · rw [if_pos hj, if_pos (by omega), if_pos hj]
    rcases Nat.lt_or_ge j (b.length + c.length) with hj' | hj'
    · rw [if_neg (by omega), if_pos (by omega), if_pos hj', if_neg (by omega)]
    · rw [if_neg (by omega), if_neg (by omega), if_neg (by omega), Nat.sub_sub, Nat.add_comm]

theorem zero_concat (a : Codeword) : concat Codeword.zero a = a := by
  calc concat Codeword.zero a = Codeword.ofLen a.val a.length := by simp [concat, shl]
    _ = a := ofLen_self a

theorem concat_zero (a : Codeword) : concat a Codeword.zero = a := by
  calc concat a Codeword.zero = Codeword.ofLen a.val a.length := by simp [concat]
    _ = a := ofLen_self a

/-- The stream of a concatenation begins with a's (R112; 20_memory.md R47). -/
theorem streamBit_concat_left (ha : Canonical a) (hb : Canonical b) (h : a.length + b.length ≤ 64) {p : Nat}
    (hp : p < a.length) : streamBit (concat a b) p = streamBit a p := by
  rw [streamBit, streamBit, bitAt_of_canonical (concat_canonical ha hb h), bitAt_of_canonical ha, concat_length h,
    concat_top_bits ha hb h hp]

/-- After a's bits the stream of a concatenation goes on with b's (R112; 20_memory.md R47). -/
theorem streamBit_concat_right (ha : Canonical a) (hb : Canonical b) (h : a.length + b.length ≤ 64) {p : Nat}
    (hp : p < b.length) : streamBit (concat a b) (a.length + p) = streamBit b p := by
  have hpos : a.length + b.length - 1 - (a.length + p) = b.length - 1 - p := by omega
  rw [streamBit, streamBit, bitAt_of_canonical (concat_canonical ha hb h), bitAt_of_canonical hb, concat_length h, hpos,
    concat_low_bits ha hb h (by omega)]

end Concat

/-- Settles O33: one law of `concat` for each property of R112. -/
theorem concatIsAssociativeStreamOrder : Obligations.ConcatIsAssociativeStreamOrder := by
  intro a b c ha hb hc h
  have hab : a.length + b.length ≤ 64 := by omega
  exact ⟨concat_canonical ha hb hab, concat_assoc ha hb hc h, zero_concat a, concat_zero a,
    fun _ => streamBit_concat_left ha hb hab, fun _ => streamBit_concat_right ha hb hab⟩

/-! CAT (R110, R111). -/

theorem catResult_of_le {l : Command} (h : l.a.length + l.b.length ≤ 64) :
    catResult l = okR (concat (canon l.a) (canon l.b)) := by
  rw [catResult, withAB_of_le (by omega) (by omega), canon_length, canon_length, if_neg (Nat.not_lt.2 h)]

theorem catResult_of_overflow {l : Command} (ha : l.a.length ≤ 64) (hb : l.b.length ≤ 64)
    (h : 64 < l.a.length + l.b.length) : catResult l = .contract .catOverflow := by
  rw [catResult, withAB_of_le ha hb, canon_length, canon_length, if_pos h]

/-- Where the lengths fit together CAT completes OK with the concatenation of the canonical operands in R (R111). -/
theorem exec_cat_of_le {s : State} (h : s.latch.a.length + s.latch.b.length ≤ 64) :
    ∃ t, exec .cat s = .next t ∧ CompletesWithR s t ∧ t.r = concat (canon s.latch.a) (canon s.latch.b) :=
  exec_okR (i := .cat) (catResult_of_le h)

/-- Settles O32: the bits of CAT's result are those of `concat`, read in the significant bits of the operands. -/
theorem catJoinsTheBits : Obligations.CatJoinsTheBits := by
  refine ⟨decode_encode .cat, fun s => ⟨fun h => ?_, fun ha hb h => ?_, ?_⟩⟩
  · have ha : Canonical (canon s.latch.a) := canonical_canon (by omega)
    have hb : Canonical (canon s.latch.b) := canonical_canon (by omega)
    obtain ⟨t, ht, hok, hr⟩ := exec_cat_of_le h
    refine ⟨t, ht, hok, ?_⟩
    rw [hr]
    refine ⟨concat_length h, concat_canonical ha hb h, fun j hj => ?_, fun j hj => ?_⟩
    · rw [concat_low_bits ha hb h hj, canon_getLsbD, bitAt_of_lt hj]
    · rw [← canon_length s.latch.b, concat_high_bits ha hb h, canon_getLsbD, bitAt_of_lt hj]
  · exact exec_contract (i := .cat) (catResult_of_overflow ha hb h)
  · rintro (ha | hb)
    · exact exec_of_a_gt (by decide) ha
    · exact exec_of_b_gt (by decide) hb

/-! SPLIT (R113 to R116). -/

theorem splitResult_of_scan {l : Command} {n : Nat} (hlen : l.a.length ≤ 64)
    (hscan : scan (canon l.a).val l.a.length = n) (hpos : n ≠ 0) (hfit : n ≤ l.a.length) :
    splitResult l = okRQ (splitAt (canon l.a) n).1 (splitAt (canon l.a) n).2 := by
  simp [splitResult, withA_of_le hlen, hscan, hpos, Nat.not_lt.2 hfit]

theorem splitResult_of_overrun {l : Command} {n : Nat} (hlen : l.a.length ≤ 64)
    (hscan : scan (canon l.a).val l.a.length = n) (hover : l.a.length < n) : splitResult l = .malformed .overrun := by
  simp [splitResult, withA_of_le hlen, hscan, hover, Nat.ne_zero_of_lt hover]

theorem splitResult_of_noMarker {l : Command} (hlen : l.a.length ≤ 64)
    (hscan : scan (canon l.a).val l.a.length = 0) : splitResult l = .malformed .noMarker := by
  simp [splitResult, withA_of_le hlen, hscan]

/-- A command whose results are two codewords completes OK with them in R and Q (R39). -/
theorem exec_okRQ {i : Instr} {s : State} {c d : Codeword} (h : commandResult s.encLimit i s.latch = okRQ c d) :
    ∃ t, exec i s = .next t ∧ CompletesOk s t ∧ t.r = c ∧ t.q = d ∧ t.rScl = 0 ∧ t.bout = zeroLanes :=
  ⟨_, exec_eq _ _, by rw [h]; exact ⟨complete_ok _ _, rfl, rfl, rfl, rfl⟩⟩

/-- SPLIT of a buffer whose leftmost code is measured and fits completes OK with that code in R and the rest in Q
(R116). -/
theorem exec_split_of_scan {s : State} {n : Nat} (hlen : s.latch.a.length ≤ 64)
    (hscan : scan (canon s.latch.a).val s.latch.a.length = n) (hpos : n ≠ 0) (hfit : n ≤ s.latch.a.length) :
    ∃ t, exec .split s = .next t ∧ CompletesOk s t ∧ t.r = (splitAt (canon s.latch.a) n).1 ∧
      t.q = (splitAt (canon s.latch.a) n).2 ∧ t.rScl = 0 ∧ t.bout = zeroLanes :=
  exec_okRQ (i := .split) (splitResult_of_scan hlen hscan hpos hfit)

/-- The second part of a split holds the buffer's bits below the code (R113). -/
theorem splitAt_snd_bits {c : Codeword} {n j : Nat} (hlen : c.length ≤ 64) (hj : j < c.length - n) :
    (splitAt c n).2.val.getLsbD j = c.val.getLsbD j := by
  rw [splitAt_snd_getLsbD, decide_eq_true (show j < 64 by omega), decide_eq_true hj, Bool.true_and, Bool.and_true]

/-- Settles O34: the scan measures the run or finds none, and SPLIT has one law for each outcome of it. -/
theorem splitTakesTheLeftmostCode : Obligations.SplitTakesTheLeftmostCode := by
  refine ⟨decode_encode .split, fun s => ⟨fun r hlen hrun hfit => ?_, fun r hlen hrun hover => ?_,
    fun hlen hflat => ?_, exec_of_a_gt (by decide)⟩⟩
  · have hscan := scan_of_run (run_canon hrun)
    obtain ⟨t, ht, hok, hr, hq, hscalar, hlanes⟩ := exec_split_of_scan hlen hscan (Nat.succ_ne_zero _) hfit
    refine ⟨t, ht, hok, hscalar, hlanes, ?_⟩
    rw [hr, hq]
    obtain ⟨hcanonicalR, hcanonicalQ⟩ := splitAt_canonical (canonical_canon hlen) hfit
    refine ⟨splitAt_fst_length (hfit.trans hlen), splitAt_snd_length hlen, hcanonicalR, hcanonicalQ, fun j _ => ?_,
      fun j hj => ?_⟩
    · rw [splitAt_fst_getLsbD, canon_getLsbD, canon_length]
    · rw [splitAt_snd_bits (canonical_canon hlen).1 hj, canon_getLsbD]
  · exact exec_malformed (i := .split) (splitResult_of_overrun hlen (scan_of_run (run_canon hrun)) hover)
  · exact exec_malformed (i := .split) (splitResult_of_noMarker hlen (scan_of_noFlip (noFlip_canon hflat)))

/-! SPLIT after CAT (R117). -/

/-- Splitting a concatenation after its left operand gives both operands back (R109, R113). -/
theorem splitAt_concat {a b : Codeword} (ha : Canonical a) (hb : Canonical b) (h : a.length + b.length ≤ 64) :
    splitAt (concat a b) a.length = (a, b) := by
  have hlen : (concat a b).length = a.length + b.length := concat_length h
  have hrest : (concat a b).length - a.length = b.length := by omega
  have hsnd : (splitAt (concat a b) a.length).2.length = b.length := (splitAt_snd_length (by omega)).trans hrest
  obtain ⟨_, hsplit⟩ := splitAt_canonical (n := a.length) (concat_canonical ha hb h) (by omega)
  refine Prod.ext (codeword_ext (splitAt_fst_length ha.1) fun j => ?_) (codeword_ext hsnd fun j => ?_)
  · rw [splitAt_fst_getLsbD, hrest, concat_high_bits ha hb h]
  · rcases Nat.lt_or_ge j b.length with hj | hj
    · rw [splitAt_snd_bits (by omega) (by omega), concat_low_bits ha hb h hj]
    · rw [((canonical_iff _).1 hsplit).2 j (by omega), ((canonical_iff b).1 hb).2 j hj]

/-- Settles O46: the scan of the concatenation finds the run of the left code, so SPLIT cuts where CAT joined. -/
theorem catThenSplitInverse : Obligations.CatThenSplitInverse := by
  rintro s u ⟨k, hi, offset, h1, _, _, hlayout⟩ h
  have ha : Canonical (canon s.latch.a) := canonical_canon (by omega)
  have hb : Canonical (canon s.latch.b) := canonical_canon (by omega)
  obtain ⟨t, ht, _, hr⟩ := exec_cat_of_le h
  refine ⟨t, ht, fun hu => ?_⟩
  rw [hr] at hu
  have hlen : u.latch.a.length = s.latch.a.length + s.latch.b.length := hu ▸ concat_length h
  have hcanon : canon u.latch.a = concat (canon s.latch.a) (canon s.latch.b) := by
    rw [hu, canon_of_canonical (concat_canonical ha hb h)]
  have hscan : scan (canon u.latch.a).val u.latch.a.length = s.latch.a.length := by
    rw [hcanon, hlen]
    exact (scan_concat_of_run ha hb h (run_canon (run_of_codeLayout h1 hlayout))).trans hlayout.1.symm
  have hpos : s.latch.a.length ≠ 0 := by rw [hlayout.1]; exact Nat.succ_ne_zero _
  have hsplit := exec_split_of_scan (by omega) hscan hpos (by omega)
  rwa [hcanon, ← canon_length s.latch.a, splitAt_concat ha hb h] at hsplit

/-! ALIGN (R118 to R120). -/

section Align

variable {c : Codeword}

theorem padOf_eq_zero {n : Nat} (h : n % 8 = 0) : padOf n = 0 := by
  unfold padOf
  omega

theorem align_length_eq_add (h : c.length ≤ 64) : (align c).length = c.length + padOf c.length := by
  obtain ⟨_, _, hceil⟩ := padOf_spec c.length
  rw [align_length h, hceil]

/-- A codeword of whole bytes is aligned already (R120). -/
theorem align_of_aligned (h : c.length % 8 = 0) : align c = c := by
  rw [align, padOf_eq_zero h, shl_zero, Nat.add_zero, ofLen_self]

theorem align_pad_bits {j : Nat} (hj : j < padOf c.length) : (align c).val.getLsbD j = false := by
  simp [align_getLsbD, hj]

/-- Above the pad an aligned codeword holds the operand's bits; none is lost (R118, R120). -/
theorem align_moved_bits (hc : Canonical c) (j : Nat) :
    (align c).val.getLsbD (padOf c.length + j) = c.val.getLsbD j := by
  obtain ⟨_, _, hceil⟩ := padOf_spec c.length
  have hlen := hc.1
  rw [align_getLsbD, decide_eq_false (show ¬padOf c.length + j < padOf c.length by omega), Nat.add_sub_cancel_left]
  rcases Nat.lt_or_ge (padOf c.length + j) 64 with hj | hj
  · rw [decide_eq_true hj, Bool.not_false, Bool.true_and, Bool.true_and]
  · rw [((canonical_iff c).1 hc).2 j (by omega), Bool.and_false]

end Align

/-- Settles O36: the aligned length is a multiple of 8, so aligning again pads nothing. -/
theorem alignIsIdempotent : Obligations.AlignIsIdempotent := by
  intro c hc
  obtain ⟨hpad, hbytes, _⟩ := padOf_spec c.length
  have hlen := align_length_eq_add hc.1
  have haligned : (align c).length % 8 = 0 := hlen ▸ hbytes
  refine ⟨align_of_aligned haligned, by omega, haligned, align_canonical hc, hpad, padOf_eq_zero, ?_⟩
  exact BitVec.eq_of_getLsbD_eq fun j _ => (shr_getLsbD _ _ _).trans (align_moved_bits hc j)

theorem alignResult_of_le {l : Command} (h : l.a.length ≤ 64) : alignResult l = okR (align (canon l.a)) :=
  withA_of_le h _

/-- Settles O35: the bits of ALIGN's result are the pad's zeros and above them the operand's significant bits. -/
theorem alignPadsToWholeBytes : Obligations.AlignPadsToWholeBytes := by
  refine ⟨decode_encode .align, fun s => ⟨fun h => ?_, exec_of_a_gt (by decide)⟩⟩
  have hc : Canonical (canon s.latch.a) := canonical_canon h
  obtain ⟨t, ht, hok, hr⟩ := exec_okR (i := .align) (alignResult_of_le h)
  have hpad : t.r.length - s.latch.a.length = padOf (canon s.latch.a).length := by
    rw [hr, align_length_eq_add hc.1, canon_length, Nat.add_sub_cancel_left]
  refine ⟨t, ht, hok, ?_⟩
  rw [hpad, hr]
  refine ⟨align_length hc.1, align_canonical hc, fun j => align_pad_bits, fun j hj => ?_⟩
  rw [align_moved_bits hc, canon_getLsbD, bitAt_of_lt hj]

end Sys2Proof.Proofs
end

section
/-! Proofs of the statements about byte serialization (spec 44_serialization.md): WRITE, READ, and READ after WRITE. -/

namespace Sys2Proof.Proofs

open Sys2Proof.Machine Sys2Proof.Safety Sys2Proof.Laws

/-! Stream bits of codewords and lanes (20_memory.md R47, R50, R51). -/

@[simp] theorem streamBit_canon (c : Codeword) (p : Nat) : streamBit (canon c) p = streamBit c p :=
  bitAt_canon c _

/-- A canonical codeword is determined by its length and its stream (R47). -/
theorem codeword_ext_stream {c d : Codeword} (hc : Canonical c) (hd : Canonical d) (hlen : c.length = d.length)
    (hstream : ∀ p, p < c.length → streamBit c p = streamBit d p) : c = d := by
  refine codeword_ext hlen fun j => ?_
  rw [← bitAt_of_canonical hc, ← bitAt_of_canonical hd]
  rcases Nat.lt_or_ge j c.length with hj | hj
  · have hbit := hstream (c.length - 1 - j) (by omega)
    rwa [streamBit, streamBit, ← hlen, show c.length - 1 - (c.length - 1 - j) = j by omega] at hbit
  · rw [bitAt_of_ge hj, bitAt_of_ge (hlen ▸ hj)]

/-- Lanes that agree below lane n carry the same first 8n stream bits. -/
theorem laneBit_congr {lanes lanes' : Lanes} {n p : Nat} (hagree : ∀ i : Fin 8, i.val < n → lanes[i] = lanes'[i])
    (hp : p < 8 * n) (h64 : p < 64) : laneBit lanes p = laneBit lanes' p := by
  have hlane : p / 8 < 8 := by omega
  have hsame : lanes[p / 8] = lanes'[p / 8] := hagree ⟨p / 8, hlane⟩ (Nat.div_lt_of_lt_mul hp)
  simp [laneBit, List.getD_eq_getElem?_getD, hlane, hsame]

/-- A byte count put into R_SCL reads back as itself. -/
theorem ofNat_toNat_of_lt {n : Nat} (h : n < 2 ^ 32) : (BitVec.ofNat 32 n).toNat = n :=
  (BitVec.toNat_ofNat n 32).trans (Nat.mod_eq_of_lt h)

/-! WRITE (R122 to R125). -/

theorem writeResult_of_fits {l : Command} (hlen : l.a.length ≤ 64) (hroom : (l.a.length + 7) / 8 ≤ s0Nat l) :
    writeResult l = .ok { Results.zero with
      bout := wireLanes (canon l.a), rScl := BitVec.ofNat 32 ((l.a.length + 7) / 8) } := by
  have hcount : byteCount (canon l.a) = (l.a.length + 7) / 8 := byteCount_eq hlen
  rw [writeResult, withA_of_le hlen, hcount, if_neg (Nat.not_lt.2 hroom)]

theorem writeResult_of_small {l : Command} (hlen : l.a.length ≤ 64) (hsmall : s0Nat l < (l.a.length + 7) / 8) :
    writeResult l = .nospace := by
  have hcount : byteCount (canon l.a) = (l.a.length + 7) / 8 := byteCount_eq hlen
  rw [writeResult, withA_of_le hlen, hcount, if_pos hsmall]

/-- With enough capacity WRITE completes OK with the byte count in R_SCL and the operand's stream, then zeros, on the
lanes (R124, R125). -/
theorem exec_write_of_fits {s : State} (hlen : s.latch.a.length ≤ 64)
    (hroom : (s.latch.a.length + 7) / 8 ≤ s.latch.s0.toNat) :
    ∃ t, exec .write s = .next t ∧ CompletesOk s t ∧ t.r = Codeword.zero ∧ t.q = Codeword.zero ∧
      t.rScl.toNat = (s.latch.a.length + 7) / 8 ∧
      ∀ p, p < 64 → laneBit t.bout p = (decide (p < s.latch.a.length) && streamBit s.latch.a p) := by
  have hresult : commandResult s.encLimit .write s.latch = _ := writeResult_of_fits hlen hroom
  refine ⟨_, exec_eq _ _, ?_⟩
  rw [hresult]
  refine ⟨complete_ok _ _, rfl, rfl, ofNat_toNat_of_lt (by omega), fun p hp => ?_⟩
  exact (wireLanes_laneBit (canonical_canon hlen) hp).trans (by rw [canon_length, streamBit_canon])

/-- With too little capacity WRITE completes NOSPACE (R123, R140). -/
theorem exec_write_of_small {s : State} (hlen : s.latch.a.length ≤ 64)
    (hsmall : s.latch.s0.toNat < (s.latch.a.length + 7) / 8) :
    ∃ t, exec .write s = .next t ∧ FailsRecoverably s t 2 0 := by
  have hresult : commandResult s.encLimit .write s.latch = .nospace := writeResult_of_small hlen hsmall
  exact ⟨_, exec_eq _ _, hresult ▸ complete_nospace s⟩

/-- Settles O37: one law of WRITE for each of its outcomes. -/
theorem writeEmitsTheStream : Obligations.WriteEmitsTheStream :=
  ⟨decode_encode .write, fun _ => ⟨exec_write_of_fits, exec_write_of_small, exec_of_a_gt (by decide)⟩⟩

/-! The code-count loop at the first code it does not find (R127). -/

section Loop

variable {acc : CodeVal} {total used : Nat} (m : Nat)

theorem locateCodes_of_noMarker (h : scan acc (total - used) = 0) :
    locateCodes acc total (m + 1) used = .error .noMarker := by
  simp [locateCodes, h]

theorem locateCodes_of_overrun {n : Nat} (h : scan acc (total - used) = n) (hover : total - used < n) :
    locateCodes acc total (m + 1) used = .error .overrun := by
  simp [locateCodes, h, hover, Nat.ne_zero_of_lt hover]

end Loop

/-- Every code takes at least three bits (R98). -/
theorem three_mul_length_le_bitsUsed {bit : Nat → Bool} {total : Nat} : ∀ {runs : List Nat} {pos : Nat},
    CodesFrom bit total pos runs → 3 * runs.length ≤ bitsUsed runs
  | [], _, _ => Nat.le_refl 0
  | r :: rest, _, ⟨hpos, _, _, _, hrest⟩ => by
    have ih := three_mul_length_le_bitsUsed hrest
    rw [List.length_cons, bitsUsed_cons]
    omega

/-! READ (R126 to R130). -/

/-- What READ's loop answers for the latched operands: the bits its codes use, or its first failure (R127). -/
def located (l : Command) : Except MalformedCause Nat :=
  locateCodes (accumulate (sourceBytes l)) (8 * lanesRead l) (s1Nat l) 0

/-- The first `used` bits READ sees, as a codeword (R128). -/
def gathered (l : Command) (used : Nat) : Codeword :=
  Codeword.ofLen (shr (accumulate (sourceBytes l)) (8 * lanesRead l - used)) used

theorem gathered_length {l : Command} {used : Nat} (h : used ≤ 8 * lanesRead l) : (gathered l used).length = used := by
  have h8 : lanesRead l ≤ 8 := Nat.min_le_right _ _
  exact ofLen_length _ (by omega)

theorem gathered_streamBit {l : Command} {used p : Nat} (h : used ≤ 8 * lanesRead l) (hp : p < used) :
    streamBit (gathered l used) p = laneBit l.bin p := by
  have hcanonical : Canonical (gathered l used) := gathered_canonical l h
  rw [streamBit, bitAt_of_canonical hcanonical, gathered_length h, gathered, ofLen_val, shr_getLsbD,
    ← accumulate_streamBit l (by omega)]
  congr 1
  omega

theorem readResult_of_noBytes {l : Command} (h : s0Nat l = 0) : readResult l = .malformed .emptySource := if_pos h

theorem readResult_of_noCodes {l : Command} (h0 : 1 ≤ s0Nat l) (h1 : s1Nat l = 0) :
    readResult l = .malformed .zeroCount := by
  rw [readResult, if_neg (Nat.ne_of_gt h0), if_pos h1]

section Counts

variable {l : Command} (h0 : 1 ≤ s0Nat l) (h1 : 1 ≤ s1Nat l)
include h0 h1

theorem readResult_of_located {used : Nat} (h : located l = .ok used) :
    readResult l = .ok { Results.zero with r := gathered l used, rScl := BitVec.ofNat 32 (ceil8 used) } := by
  rw [located] at h
  simp [readResult, Nat.ne_of_gt h0, Nat.ne_of_gt h1, h, gathered]

theorem readResult_of_not_located {cause : MalformedCause} (h : located l = .error cause) :
    readResult l = .malformed cause := by
  rw [located] at h
  simp [readResult, Nat.ne_of_gt h0, Nat.ne_of_gt h1, h]

end Counts

/-- Behind codes laid end to end the loop goes on to look for those still wanted. -/
theorem located_over {l : Command} {runs : List Nat} (hle : runs.length ≤ s1Nat l)
    (hcodes : CodesFrom (laneBit l.bin) (8 * lanesRead l) 0 runs) :
    located l = locateCodes (accumulate (sourceBytes l)) (8 * lanesRead l) (s1Nat l - runs.length) (bitsUsed runs) := by
  have hover := locateCodes_over (fun _ => accumulate_streamBit l) (s1Nat l - runs.length) hcodes
  rwa [Nat.sub_add_cancel hle, Nat.zero_add] at hover

theorem located_of_codes {l : Command} {runs : List Nat} (hcount : runs.length = s1Nat l)
    (hcodes : CodesFrom (laneBit l.bin) (8 * lanesRead l) 0 runs) : located l = .ok (bitsUsed runs) := by
  rw [located_over hcount.le hcodes, hcount, Nat.sub_self, locateCodes]

section Failure

variable {l : Command} {runs : List Nat} (hlt : runs.length < s1Nat l)
  (hcodes : CodesFrom (laneBit l.bin) (8 * lanesRead l) 0 runs)
include hlt hcodes

/-- Codes and then a rest without a flip: the next code has no marker (R127). -/
theorem located_of_noFlip (hrest : ∀ j, bitsUsed runs + j < 8 * lanesRead l →
    laneBit l.bin (bitsUsed runs + j) = laneBit l.bin (bitsUsed runs)) : located l = .error .noMarker := by
  obtain ⟨m, hm⟩ : ∃ m, s1Nat l - runs.length = m + 1 := Nat.exists_eq_add_of_le' (by omega)
  rw [located_over hlt.le hcodes, hm]
  exact locateCodes_of_noMarker m (scan_of_streamNoFlip (fun _ => accumulate_streamBit l) hrest)

/-- Codes and then a run whose marker is there but not its whole payload: the next code overruns (R127). -/
theorem located_of_long {r : Nat} (h1 : 1 ≤ r) (hfit : bitsUsed runs + r < 8 * lanesRead l)
    (hover : 8 * lanesRead l < bitsUsed runs + (2 * r + 1))
    (hrun : ∀ j, j < r → laneBit l.bin (bitsUsed runs + j) = laneBit l.bin (bitsUsed runs))
    (hmarker : laneBit l.bin (bitsUsed runs + r) = !laneBit l.bin (bitsUsed runs)) : located l = .error .overrun := by
  obtain ⟨m, hm⟩ : ∃ m, s1Nat l - runs.length = m + 1 := Nat.exists_eq_add_of_le' (by omega)
  rw [located_over hlt.le hcodes, hm]
  exact locateCodes_of_overrun m (scan_of_streamRun (fun _ => accumulate_streamBit l) h1 hfit hrun hmarker) (by omega)

end Failure

/-- More codes than a third of the bits are never found: the loop fails (R134). -/
theorem located_of_tooMany {l : Command} (h : 8 * lanesRead l / 3 < s1Nat l) :
    located l = .error .noMarker ∨ located l = .error .overrun := by
  rcases locateCodes_cases (fun _ => accumulate_streamBit l) (s1Nat l) 0 (Nat.zero_le _) with
    ⟨runs, hcount, hcodes, _⟩ | ⟨_, _, _, herror⟩ | ⟨_, _, _, herror⟩
  · have hshort := three_mul_length_le_bitsUsed hcodes
    have hfit := bitsUsed_le (Nat.zero_le _) hcodes
    omega
  · exact .inl herror
  · exact .inr herror

theorem exec_read_of_noBytes {s : State} (h : s.latch.s0.toNat = 0) :
    ∃ t, exec .read s = .next t ∧ FailsRecoverably s t 1 3 :=
  exec_malformed (i := .read) (readResult_of_noBytes h)

/-- READ of codes laid end to end completes OK with exactly their bits in R and the bytes that hold them in R_SCL
(R128, R130). -/
theorem exec_read_of_codes {s : State} {runs : List Nat} (h1 : 1 ≤ runs.length)
    (hcount : runs.length = s.latch.s1.toNat) (h0 : 1 ≤ s.latch.s0.toNat)
    (hcodes : CodesFrom (laneBit s.latch.bin) (8 * min s.latch.s0.toNat 8) 0 runs) :
    ∃ t, exec .read s = .next t ∧ CompletesOk s t ∧ t.q = Codeword.zero ∧ t.bout = zeroLanes ∧
      t.r.length = bitsUsed runs ∧ Canonical t.r ∧
      (∀ p, p < bitsUsed runs → streamBit t.r p = laneBit s.latch.bin p) ∧
      t.rScl.toNat = (bitsUsed runs + 7) / 8 := by
  have hfit : 0 + bitsUsed runs ≤ 8 * lanesRead s.latch := bitsUsed_le (Nat.zero_le _) hcodes
  rw [Nat.zero_add] at hfit
  have h8 : lanesRead s.latch ≤ 8 := Nat.min_le_right _ _
  have hresult : commandResult s.encLimit .read s.latch = _ :=
    readResult_of_located h0 (h1.trans_eq hcount) (located_of_codes hcount hcodes)
  refine ⟨_, exec_eq _ _, ?_⟩
  rw [hresult]
  exact ⟨complete_ok _ _, rfl, rfl, gathered_length hfit, gathered_canonical _ hfit,
    fun _ => gathered_streamBit hfit, ofNat_toNat_of_lt (by unfold ceil8; omega)⟩

/-- Settles O38: the law of READ for codes laid end to end. -/
theorem readGathersTheCodes : Obligations.ReadGathersTheCodes :=
  ⟨decode_encode .read, fun _ _ => exec_read_of_codes⟩

/-- Settles O39: the two empty operands, then what the loop answers at the first code it does not find. -/
theorem readReportsTheFirstFailure : Obligations.ReadReportsTheFirstFailure := by
  refine fun s => ⟨exec_read_of_noBytes, fun h0 h1 => ?_, fun runs h0 hlt hcodes => ⟨fun hrest => ?_,
    fun r h1 hfit hover hrun hmarker => ?_⟩⟩
  · exact exec_malformed (i := .read) (readResult_of_noCodes h0 h1)
  · have herror := located_of_noFlip hlt hcodes hrest
    exact exec_malformed (i := .read) (readResult_of_not_located h0 (Nat.one_le_of_lt hlt) herror)
  · have herror := located_of_long hlt hcodes h1 hfit hover hrun hmarker
    exact exec_malformed (i := .read) (readResult_of_not_located h0 (Nat.one_le_of_lt hlt) herror)

/-- READ of more codes than a third of the bits completes MALFORMED with NO_MARKER or OVERRUN (R134). -/
theorem exec_read_of_tooMany {s : State} (h0 : 1 ≤ s.latch.s0.toNat)
    (h : 8 * min s.latch.s0.toNat 8 / 3 < s.latch.s1.toNat) :
    ∃ t, exec .read s = .next t ∧ (FailsRecoverably s t 1 1 ∨ FailsRecoverably s t 1 2) := by
  have h1 : 1 ≤ s1Nat s.latch := Nat.one_le_of_lt h
  rcases located_of_tooMany h with herror | herror
  · obtain ⟨t, ht, hfails⟩ := exec_malformed (i := .read) (readResult_of_not_located h0 h1 herror)
    exact ⟨t, ht, .inl hfails⟩
  · obtain ⟨t, ht, hfails⟩ := exec_malformed (i := .read) (readResult_of_not_located h0 h1 herror)
    exact ⟨t, ht, .inr hfails⟩

/-- Settles O40: READ sees at most 64 bits, a third of which is below 22. -/
theorem readOfTooManyCodesFails : Obligations.ReadOfTooManyCodesFails :=
  fun _ => ⟨exec_read_of_tooMany, fun h0 h22 => exec_read_of_tooMany h0 (by omega), exec_read_of_noBytes⟩

/-! READ after WRITE (R132). -/

/-- Codes joined in stream order, the way the host builds WRITE's operand with CAT (R132). -/
def joined (codes : List Codeword) : Codeword := codes.foldr concat Codeword.zero

theorem joined_cons (c : Codeword) (codes : List Codeword) : joined (c :: codes) = concat c (joined codes) := rfl

/-- The width a codeword's length gives it, if it is a code (30_encoding.md R71). -/
def codeWidth (c : Codeword) : Nat := c.length / 2

/-- A joined list that fits is canonical and as long as its codes together. -/
theorem joined_spec : ∀ {codes : List Codeword}, (∀ c, c ∈ codes → Canonical c) →
    (codes.map Codeword.length).sum ≤ 64 →
    Canonical (joined codes) ∧ (joined codes).length = (codes.map Codeword.length).sum
  | [], _, _ => ⟨canonical_zero, codeword_zero_length⟩
  | c :: codes, hall, hsum => by
    rw [List.map_cons, List.sum_cons] at hsum ⊢
    obtain ⟨hc, hcodes⟩ := List.forall_mem_cons.1 hall
    obtain ⟨hcanonical, hlen⟩ := joined_spec hcodes (by omega)
    have hfit : c.length + (joined codes).length ≤ 64 := by omega
    rw [joined_cons]
    exact ⟨concat_canonical hc hcanonical hfit, by rw [concat_length hfit, hlen]⟩

/-- A complete code is as long as a code of its width (R71). -/
theorem codeWidth_spec {c : Codeword} (h : CompleteCode c) : 2 * codeWidth c + 1 = c.length := by
  obtain ⟨k, _, _, _, _, _, hlen, _⟩ := h
  unfold codeWidth
  omega

theorem run_of_completeCode {c : Codeword} (h : CompleteCode c) : RunThenMarker (bitAt c) c.length (codeWidth c) := by
  have hwidth := codeWidth_spec h
  obtain ⟨k, _, _, h1, _, _, hlayout⟩ := h
  have hlen := hlayout.1
  obtain rfl : k = codeWidth c := by omega
  exact run_of_codeLayout h1 hlayout

/-- Complete codes use as many bits as they are long. -/
theorem bitsUsed_codeWidth : ∀ {codes : List Codeword}, (∀ c, c ∈ codes → CompleteCode c) →
    bitsUsed (codes.map codeWidth) = (codes.map Codeword.length).sum
  | [], _ => rfl
  | c :: codes, hall => by
    obtain ⟨hc, hcodes⟩ := List.forall_mem_cons.1 hall
    rw [List.map_cons, List.map_cons, bitsUsed_cons, List.sum_cons, bitsUsed_codeWidth hcodes, codeWidth_spec hc]

/-- A complete code in the stream, and codes end to end behind it, are codes end to end (R127). -/
theorem codesFrom_cons_of_code {bit : Nat → Bool} {total pos : Nat} {c : Codeword} {runs : List Nat}
    (hc : CompleteCode c) (hfit : pos + c.length ≤ total)
    (hbits : ∀ p, p < c.length → bit (pos + p) = streamBit c p)
    (hrest : CodesFrom bit total (pos + c.length) runs) : CodesFrom bit total pos (codeWidth c :: runs) := by
  obtain ⟨h1, hlt, hrun, hmarker⟩ := run_of_completeCode hc
  have hfirst : bit pos = bitAt c (c.length - 1) := hbits 0 (by omega)
  rw [← codeWidth_spec hc] at hfit hrest
  refine ⟨h1, fun j hj => ?_, ?_, hfit, hrest⟩
  · exact (hbits j (by omega)).trans ((hrun j hj).trans hfirst.symm)
  · rw [hbits _ hlt, hfirst]
    exact hmarker

/-- A stream that holds the bits of joined codes holds those codes end to end (R132). -/
theorem codesFrom_of_joined {bit : Nat → Bool} {total : Nat} : ∀ {codes : List Codeword} {pos : Nat},
    (∀ c, c ∈ codes → CompleteCode c ∧ Canonical c) → (codes.map Codeword.length).sum ≤ 64 →
    pos + (joined codes).length ≤ total → (∀ p, p < (joined codes).length → bit (pos + p) = streamBit (joined codes) p) →
    CodesFrom bit total pos (codes.map codeWidth)
  | [], _, _, _, _, _ => trivial
  | c :: codes, pos, hall, hsum, hfit, hbits => by
    rw [List.map_cons, List.sum_cons] at hsum
    obtain ⟨⟨hcode, hc⟩, hcodes⟩ := List.forall_mem_cons.1 hall
    obtain ⟨hcanonical, hlen⟩ := joined_spec (fun d hd => (hcodes d hd).2) (by omega)
    have hjoin : c.length + (joined codes).length ≤ 64 := by omega
    rw [joined_cons, concat_length hjoin] at hfit hbits
    have hhead : ∀ p, p < c.length → bit (pos + p) = streamBit c p := fun p hp =>
      (hbits p (by omega)).trans (streamBit_concat_left hc hcanonical hjoin hp)
    have htail : ∀ p, p < (joined codes).length → bit (pos + c.length + p) = streamBit (joined codes) p := fun p hp => by
      rw [Nat.add_assoc, hbits _ (by omega), streamBit_concat_right hc hcanonical hjoin hp]
    exact codesFrom_cons_of_code hcode (by omega) hhead (codesFrom_of_joined hcodes (by omega) (by omega) htail)

/-- READ of m codes from lanes that begin with m joined codes gives them back (R132). -/
theorem exec_read_of_joined {u : State} {codes : List Codeword} (hne : codes ≠ [])
    (hall : ∀ c, c ∈ codes → CompleteCode c ∧ Canonical c) (hsum : (codes.map Codeword.length).sum ≤ 64)
    (hcount : u.latch.s1.toNat = codes.length) (hfit : (joined codes).length ≤ 8 * min u.latch.s0.toNat 8)
    (hbits : ∀ p, p < (joined codes).length → laneBit u.latch.bin p = streamBit (joined codes) p) :
    ∃ v, exec .read u = .next v ∧ CompletesOk u v ∧ v.r = joined codes ∧
      v.rScl.toNat = ((joined codes).length + 7) / 8 ∧ v.q = Codeword.zero ∧ v.bout = zeroLanes := by
  obtain ⟨hcanonical, hlen⟩ := joined_spec (fun c hc => (hall c hc).2) hsum
  have hused : bitsUsed (codes.map codeWidth) = (joined codes).length :=
    (bitsUsed_codeWidth fun c hc => (hall c hc).1).trans hlen.symm
  have hcodes : CodesFrom (laneBit u.latch.bin) (8 * min u.latch.s0.toNat 8) 0 (codes.map codeWidth) :=
    codesFrom_of_joined hall hsum (by omega) fun p hp => (congrArg _ (Nat.zero_add p)).trans (hbits p hp)
  have hruns : (codes.map codeWidth).length = codes.length := List.length_map codeWidth
  have hpos : 0 < codes.length := List.length_pos_iff.2 hne
  have hthree := three_mul_length_le_bitsUsed hcodes
  obtain ⟨v, hv, hok, hq, hbout, hrlen, hr, hrbits, hscalar⟩ :=
    exec_read_of_codes (by omega) (hruns.trans hcount.symm) (by omega) hcodes
  rw [hused] at hrlen hrbits hscalar
  have hjoined : v.r = joined codes := codeword_ext_stream hr hcanonical hrlen fun p hp =>
    (hrbits p (hrlen ▸ hp)).trans (hbits p (hrlen ▸ hp))
  exact ⟨v, hv, hok, hjoined, hscalar, hq, hbout⟩

/-- Settles O47: the lanes READ sees begin with the stream WRITE emitted, which is that of the joined codes. -/
theorem writeThenReadRoundTrip : Obligations.WriteThenReadRoundTrip := by
  intro s u codes hne hall hsum (ha : s.latch.a = joined codes) hroom
  obtain ⟨hcanonical, _⟩ := joined_spec (fun c hc => (hall c hc).2) hsum
  obtain ⟨t, ht, hok, _, _, hcount, hlanes⟩ := exec_write_of_fits (ha ▸ hcanonical.1) hroom
  rw [ha] at hcount hlanes ⊢
  refine ⟨t, ht, hok, hcount, fun hagree hbytes hs0 hs1 => ?_⟩
  have hbits : ∀ p, p < (joined codes).length → laneBit u.latch.bin p = streamBit (joined codes) p := fun p hp => by
    rw [laneBit_congr hagree (by omega) (by omega), hlanes p (by omega), decide_eq_true hp, Bool.true_and]
  obtain ⟨v, hv, hvok, hr, hscalar, hzero⟩ := exec_read_of_joined hne hall hsum hs1 (by omega) hbits
  exact ⟨v, hv, hvok, hr, BitVec.eq_of_toNat_eq (hscalar.trans hcount.symm), hzero⟩

end Sys2Proof.Proofs
end

section
/-! Proofs of the statements about exceptions (spec 60_exceptions.md): the table of outcomes, the rejection of a
faulted unit, what a completion edge can end with, and what every edge answers. -/

namespace Sys2Proof.Proofs

open Sys2Proof.Machine Sys2Proof.Safety Sys2Proof.Laws

/-! The outcome table (R144). -/

/-- The (CODE, CAUSE) pair of a completion (10_state.md R34, R35). -/
def outcomePair (c : Completion) : BitVec 3 × BitVec 4 := (completionCode c, completionCause c)

/-- `complete` writes the pair of its completion (R138). -/
theorem status_complete (s : State) (c : Completion) :
    (statusCode (complete s c).status, statusCause (complete s c).status) = outcomePair c := by simp [outcomePair]

/-- The table allows command `i` the completion `c`: it is OK or a failure of the command's row. -/
def InRow (i : Instr) (c : Completion) : Prop := outcomePair c = (0, 0) ∨ outcomePair c ∈ failuresOf i

section Rows

variable {i : Instr}

theorem inRow_ok (res : Results) : InRow i (.ok res) := .inl rfl

theorem inRow_okR (c : Codeword) : InRow i (okR c) := inRow_ok _

theorem inRow_okRQ (c d : Codeword) : InRow i (okRQ c d) := inRow_ok _

theorem inRow_okScalar (n : Nat) : InRow i (okScalar n) := inRow_ok _

/-- The row of every command that reads A or B lists BAD_LENGTH (40_codeword.md R81). -/
theorem inRow_badLength (hread : Port.a ∈ i.portsRead) : InRow i (.contract .badLength) := by
  cases i with
  | enc | read => simp [Instr.portsRead] at hread
  | _ => exact .inr (by decide)

/-- After the length check only the command's own outcomes are left to look up. -/
theorem inRow_withA {body : Codeword → Completion} (l : Command) (hread : Port.a ∈ i.portsRead)
    (h : ∀ c, InRow i (body c)) : InRow i (withA l body) := by
  rcases withA_cases l body with ⟨_, hbody⟩ | ⟨_, hbad⟩
  · exact hbody ▸ h _
  · exact hbad ▸ inRow_badLength hread

theorem inRow_withAB {body : Codeword → Codeword → Completion} (l : Command) (hread : Port.a ∈ i.portsRead)
    (h : ∀ c d, InRow i (body c d)) : InRow i (withAB l body) := by
  rcases withAB_cases l body with ⟨_, _, hbody⟩ | ⟨_, hbad⟩
  · exact hbody ▸ h _ _
  · exact hbad ▸ inRow_badLength hread

end Rows

theorem encResult_inRow (limit : Config.EncLimit) (hi : Bool) (l : Command) :
    InRow (.enc hi) (encResult limit hi l) := by
  rcases Nat.lt_or_ge (s0Nat l) (encLimitValue limit) with h | h
  · exact encResult_of_lt hi h ▸ inRow_okR _
  · exact encResult_of_ge hi h ▸ .inr (List.mem_singleton_self _)

theorem clenResult_inRow (l : Command) : InRow .clen (clenResult l) := by
  refine inRow_withA l (by decide) fun c => ?_
  split_ifs
  · exact .inr (by decide)
  · exact .inr (by decide)
  · exact inRow_okScalar _

theorem decResult_inRow (l : Command) : InRow .dec (decResult l) := by
  refine inRow_withA l (by decide) fun c => ?_
  split_ifs
  · exact inRow_okScalar _
  · exact .inr (by decide)

theorem leadResult_inRow (l : Command) : InRow .lead (leadResult l) := by
  refine inRow_withA l (by decide) fun c => ?_
  by_cases hempty : c.length = 0
  · exact if_pos hempty ▸ .inr (by decide)
  · exact if_neg hempty ▸ inRow_okScalar _

theorem eqResult_inRow (l : Command) : InRow .eq (eqResult l) :=
  inRow_withAB l (by decide) fun _ _ => inRow_okScalar _

theorem catResult_inRow (l : Command) : InRow .cat (catResult l) := by
  refine inRow_withAB l (by decide) fun a b => ?_
  split_ifs
  · exact .inr (by decide)
  · exact inRow_okR _

theorem splitResult_inRow (l : Command) : InRow .split (splitResult l) := by
  refine inRow_withA l (by decide) fun c => ?_
  dsimp only
  split_ifs
  · exact .inr (by decide)
  · exact .inr (by decide)
  · exact inRow_okRQ _ _

theorem alignResult_inRow (l : Command) : InRow .align (alignResult l) :=
  inRow_withA l (by decide) fun _ => inRow_okR _

theorem writeResult_inRow (l : Command) : InRow .write (writeResult l) := by
  refine inRow_withA l (by decide) fun c => ?_
  split_ifs
  · exact .inr (by decide)
  · exact inRow_ok _

/-- READ's loop locates all codes or fails with NO_MARKER or OVERRUN (44_serialization.md R127). -/
theorem located_cases (l : Command) :
    (∃ used, located l = .ok used) ∨ located l = .error .noMarker ∨ located l = .error .overrun := by
  rcases locateCodes_cases (fun _ => accumulate_streamBit l) (s1Nat l) 0 (Nat.zero_le _) with
    ⟨_, _, _, hok⟩ | ⟨_, _, _, hnone⟩ | ⟨_, _, _, hover⟩
  · exact .inl ⟨_, hok⟩
  · exact .inr (.inl hnone)
  · exact .inr (.inr hover)

theorem readResult_inRow (l : Command) : InRow .read (readResult l) := by
  rcases Nat.eq_zero_or_pos (s0Nat l) with h0 | h0
  · exact readResult_of_noBytes h0 ▸ .inr (by decide)
  rcases Nat.eq_zero_or_pos (s1Nat l) with h1 | h1
  · exact readResult_of_noCodes h0 h1 ▸ .inr (by decide)
  rcases located_cases l with ⟨used, hok⟩ | hnone | hover
  · exact readResult_of_located h0 h1 hok ▸ inRow_ok _
  · exact readResult_of_not_located h0 h1 hnone ▸ .inr (by decide)
  · exact readResult_of_not_located h0 h1 hover ▸ .inr (by decide)

/-- No command has an outcome outside its row, whatever its operands. -/
theorem commandResult_inRow (limit : Config.EncLimit) (l : Command) : ∀ i : Instr, InRow i (commandResult limit i l)
  | .enc hi => encResult_inRow limit hi l
  | .clen => clenResult_inRow l
  | .dec => decResult_inRow l
  | .lead => leadResult_inRow l
  | .eq => eqResult_inRow l
  | .cat => catResult_inRow l
  | .split => splitResult_inRow l
  | .align => alignResult_inRow l
  | .write => writeResult_inRow l
  | .read => readResult_inRow l

/-- Operands that make a command fail: one latch for each failure of its row, in the order of the table. -/
def failingOperands : Instr → List Command
  | .enc _ => [{ Command.empty with s0 := 4294967295 }]
  | .clen => [{ Command.empty with a := ⟨0, 65⟩ }, { Command.empty with s0 := 65 }, Command.empty]
  | .dec | .lead => [{ Command.empty with a := ⟨0, 65⟩ }, Command.empty]
  | .eq | .align => [{ Command.empty with a := ⟨0, 65⟩ }]
  | .cat => [{ Command.empty with a := ⟨0, 65⟩ }, { Command.empty with a := ⟨0, 64⟩, b := ⟨0, 1⟩ }]
  | .split => [{ Command.empty with a := ⟨0, 65⟩ }, Command.empty, { Command.empty with a := ⟨1, 2⟩ }]
  | .write => [{ Command.empty with a := ⟨0, 65⟩ }, { Command.empty with a := ⟨0, 1⟩ }]
  | .read => [Command.empty, { Command.empty with s0 := 1 }, { Command.empty with s0 := 1, s1 := 1 },
      { Command.empty with s0 := 1, s1 := 1, bin := #v[0x10, 0, 0, 0, 0, 0, 0, 0] }]

/-- The model, run on these operands, answers the row of the table. -/
theorem failingOperands_outcomes (i : Instr) :
    (failingOperands i).map (fun l => outcomePair (commandResult .cctK i l)) = failuresOf i := by
  cases i with
  | enc hi => cases hi <;> decide
  | _ => decide

/-- Every failure of a row occurs: in the unit after reset, with the operands listed for it in flight. -/
theorem failure_occurs {i : Instr} {p : BitVec 3 × BitVec 4} (hp : p ∈ failuresOf i) :
    ∃ s t : State, exec i s = .next t ∧ (statusCode t.status, statusCause t.status) = p := by
  rw [← failingOperands_outcomes i] at hp
  obtain ⟨l, _, hl⟩ := List.mem_map.1 hp
  exact ⟨placeInFlight State.reset l, _, exec_eq _ _, (status_complete _ _).trans hl⟩

/-! FAULT = 1 (R143). -/

/-- A faulted unit completes REJECTED whatever it has in flight. -/
theorem step_of_fault {s : State} (hs : AtCompletion s) (hfault : statusFault s.status = true) :
    step s = .next (complete s .rejected) := by
  rw [step_atCompletion hs]
  rcases completionEdge_cases s with ⟨_, hedge⟩ | ⟨_, hclear, _⟩ | ⟨_, hclear, _⟩
  · exact hedge
  · simp [hfault] at hclear
  · simp [hfault] at hclear

/-- `complete` does not read the latch it empties. -/
theorem complete_with_latch (s : State) (l : Command) (c : Completion) :
    complete { s with latch := l } c = complete s c := rfl

/-- Settles O9: the rejection is one completion, the same for every latch. -/
theorem faultedUnitRejects : Obligations.FaultedUnitRejects := by
  intro s hs hfault
  refine ⟨_, step_of_fault hs hfault, complete_rejected s, fun l => ?_⟩
  have hstep := step_of_fault (s := { s with latch := l }) hs hfault
  rw [complete_with_latch] at hstep
  exact ⟨_, hstep, complete_rejected s, rfl⟩

/-! What a completion edge can end with (R144, R146). -/

/-- An illegal word ends with the pair of its cause (30_encoding.md R66, R67). -/
theorem outcome_of_decode_error {s t : State} {e : Illegal} (hs : AtCompletion s)
    (hfault : statusFault s.status = false) (hd : decode s.latch.cmd = .error e) (h : step s = .next t) :
    (statusCode t.status, statusCause t.status) = (3, contractCauseBits (illegalCause e)) := by
  obtain ⟨u, hu, hcode, hcause, _⟩ := step_of_decode_error hs hfault hd
  cases hu.symm.trans h
  exact Prod.ext hcode hcause

/-- Settles O22: the four ways a completion edge can go, then the operands of each failure. -/
theorem outcomesAreThoseListed : Obligations.OutcomesAreThoseListed := by
  refine ⟨fun s t hs h => ⟨fun hfault => ?_, fun hfault hd => ?_, fun hfault hd => ?_, fun i hfault hd => ?_⟩,
    fun _ _ => failure_occurs⟩
  · cases (step_of_fault hs hfault).symm.trans h
    exact status_complete s .rejected
  · exact outcome_of_decode_error hs hfault hd h
  · exact outcome_of_decode_error hs hfault hd h
  · obtain rfl := exec_next ((step_of_decode_ok hs hfault hd).symm.trans h)
    rw [status_complete]
    exact commandResult_inRow s.encLimit s.latch i

/-! The edges that complete nothing, and all edges (R137, R148, R158; 70_reset_and_hazards.md R169). -/

theorem step_idle {s : State} (hrst : s.ports.rst = false) (hbusy : statusBusy s.status = false)
    (hvalid : s.ports.cmdValid = false) : step s = .next s := by
  simp [step, clockEdge, hrst, hbusy, hvalid]

theorem step_waiting {s : State} {n : Nat} (hrst : s.ports.rst = false) (hbusy : statusBusy s.status = true)
    (hwait : s.wait = n + 1) : step s = .next (waitEdge s n) := by
  simp [step, clockEdge, hrst, hbusy, hwait]

/-- Settles O11: a waiting edge is `waitEdge`, which writes the counter alone. -/
theorem idleAndWaitingEdgesHoldState : Obligations.IdleAndWaitingEdgesHoldState :=
  ⟨fun _ => step_idle, fun _ _ => step_waiting⟩

/-- Settles O15: each of the five kinds of edge answers a state; a completion edge by `complete`. -/
theorem everyStepAnswersNext : Obligations.EveryStepAnswersNext := by
  intro s
  rcases step_cases s with ⟨_, hreset⟩ | ⟨_, _, _, _, hwait⟩ | ⟨_, _, _, hcompletion⟩ | ⟨_, _, _, haccept⟩ |
    ⟨_, _, _, hidle⟩
  · exact ⟨_, hreset⟩
  · exact ⟨_, hwait⟩
  · obtain ⟨c, hc⟩ := completionEdge_eq_complete s
    exact ⟨_, hcompletion.trans hc⟩
  · exact ⟨_, haccept⟩
  · exact ⟨_, hidle⟩

end Sys2Proof.Proofs
end

section
/-! Proofs of the statements about reset, the edges of one command and the host's issue protocol (spec
70_reset_and_hazards.md). -/

namespace Sys2Proof.Proofs

open Sys2Proof.Machine Sys2Proof.Safety Sys2Proof.Laws

/-! The two edges that lead to a state of their own: reset (R161) and acceptance (R167). -/

theorem step_reset {s : State} (hrst : s.ports.rst = true) : step s = .next (resetUnit s) := by
  simp [step, clockEdge, hrst]

theorem step_accept {s : State} (hrst : s.ports.rst = false) (hbusy : statusBusy s.status = false)
    (hvalid : s.ports.cmdValid = true) : step s = .next (accept s) := by
  simp [step, clockEdge, hrst, hbusy, hvalid]

theorem cmdReady_eq_true {s : State} : cmdReady s = true ↔ statusBusy s.status = false := by simp [cmdReady]

/-- Settles O12: the edge is `resetUnit`, whatever the unit holds. -/
theorem resetEdgeRestoresEverything : Obligations.ResetEdgeRestoresEverything := fun s hrst =>
  ⟨resetUnit s, step_reset hrst, ⟨resetUnit_r s, resetUnit_q s, resetUnit_rScl s, resetUnit_bout s⟩,
    resetUnit_status s, resetUnit_latch s, resetUnit_wait s, resetUnit_ports s, resetUnit_extraCycles s,
    resetUnit_encLimit s, cmdReady_eq_true.2 (by simp)⟩

/-- Settles O16: the completion leaves BUSY = 0 and the ports as they were, so the next edge is an acceptance edge. -/
theorem heldValidReissues : Obligations.HeldValidReissues := by
  intro s t u hs hvalid hst htu
  obtain ⟨c, _, rfl⟩ := step_next_atCompletion hs hst
  have hbusy : statusBusy (complete s c).status = false := by simp
  cases (step_accept (s := complete s c) hs.1 hbusy hvalid).symm.trans htu
  exact ⟨hbusy, by simp, rfl⟩

/-! The ports at an edge that accepts no command (R167). -/

/-- With `p` on the ports the next edge accepts no command. -/
def AcceptsNothing (s : State) (p : Ports) : Prop := ¬(p.rst = false ∧ p.cmdValid = true ∧ cmdReady s = true)

/-- While RST = 1 or CMD_READY = 0 nothing is accepted, whatever CMD_VALID is. -/
theorem acceptsNothing_of_rst_or_busy {s : State} {p : Ports} (h : p.rst = true ∨ cmdReady s = false) :
    AcceptsNothing s p := by
  rintro ⟨hrst, _, hready⟩
  rcases h with h | h
  · cases hrst.symm.trans h
  · cases hready.symm.trans h

/-- `complete` neither reads nor writes the ports. -/
theorem complete_with_ports (s : State) (p : Ports) (c : Completion) :
    complete { s with ports := p } c = { complete s c with ports := p } := rfl

/-- The completion edge computes from the latch: with other levels on the ports it is the same completion. -/
theorem completionEdge_with_ports (s : State) (p : Ports) :
    ∃ c, completionEdge s = .next (complete s c) ∧
      completionEdge { s with ports := p } = .next { complete s c with ports := p } := by
  rcases completionEdge_cases s with ⟨hfault, h⟩ | ⟨i, hfault, hd, h⟩ | ⟨e, hfault, hd, h⟩
  · exact ⟨_, h, by simp [completionEdge, hfault, reject, complete_with_ports]⟩
  · exact ⟨_, h.trans (exec_eq i s), by simp [completionEdge, hfault, hd, exec_eq, complete_with_ports]⟩
  · exact ⟨_, h, by simp [completionEdge, hfault, hd, rejectIllegal, raiseContract, complete_with_ports]⟩

/-- Two settings of the ports with the same RST, neither of which offers a command the unit would accept, lead to
the same state but for the ports. -/
theorem step_with_ports {s t : State} {p : Ports} (hrst : p.rst = s.ports.rst) (hs : AcceptsNothing s s.ports)
    (hp : AcceptsNothing s p) (h : step s = .next t) : step { s with ports := p } = .next { t with ports := p } := by
  rcases step_cases s with ⟨hreset, hstep⟩ | ⟨hrun, hbusy, n, hn, hstep⟩ | ⟨hrun, hbusy, hw, hstep⟩ |
    ⟨hrun, hbusy, hvalid, _⟩ | ⟨hrun, hbusy, _, hstep⟩
  · cases hstep.symm.trans h
    exact step_reset (hrst.trans hreset)
  · cases hstep.symm.trans h
    exact step_waiting (hrst.trans hrun) hbusy hn
  · obtain ⟨c, hc, hcp⟩ := completionEdge_with_ports s p
    cases (hstep.trans hc).symm.trans h
    exact (step_atCompletion (s := { s with ports := p }) ⟨hrst.trans hrun, hbusy, hw⟩).trans hcp
  · exact absurd ⟨hrun, hvalid, cmdReady_eq_true.2 hbusy⟩ hs
  · cases hstep.symm.trans h
    have hvalid : p.cmdValid = false :=
      Bool.eq_false_iff.2 fun hset => hp ⟨hrst.trans hrun, hset, cmdReady_eq_true.2 hbusy⟩
    exact step_idle (hrst.trans hrun) hbusy hvalid

/-- The unit drives no input port. -/
theorem step_ports {s t : State} (h : step s = .next t) : t.ports = s.ports := by
  rcases step_next_cases h with ⟨_, rfl⟩ | ⟨_, n, _, rfl⟩ | ⟨_, c, _, rfl⟩ | ⟨_, rfl⟩ | ⟨_, rfl⟩
  · exact resetUnit_ports s
  · exact waitEdge_ports s n
  · exact complete_ports s c
  · exact accept_ports s
  · rfl

/-- Settles O10: acceptance by the laws of `accept`, every other edge by `step_with_ports`. -/
theorem acceptanceLatchesThePorts : Obligations.AcceptanceLatchesThePorts := by
  refine ⟨fun s hrst hvalid hready => ?_, fun s t c hs h => ?_, fun s t v hs h => ?_⟩
  · exact ⟨accept s, step_accept hrst (cmdReady_eq_true.1 hready) hvalid, by simp [cmdReady]⟩
  · rw [step_ports h]
    exact step_with_ports rfl hs hs h
  · rw [step_ports h]
    exact step_with_ports rfl (acceptsNothing_of_rst_or_busy hs) (acceptsNothing_of_rst_or_busy hs) h

/-! A command in flight, from its acceptance to its completion (R168). -/

/-- A run of m + n edges is a run of m edges and a run of n edges from where it leads. -/
theorem run_add {m : Nat} {s t : State} (h : Host.Core.run core m s = .next t) (n : Nat) :
    Host.Core.run core (m + n) s = Host.Core.run core n t := by
  induction m generalizing s with
  | zero =>
    cases h
    rw [Nat.zero_add]
  | succ m ih =>
    obtain ⟨u, hu⟩ := everyStepAnswersNext s
    rw [run_succ_of_step hu] at h
    rw [Nat.succ_add, run_succ_of_step hu, ih h]

/-- The edges the host counts are the machine's run. -/
theorem clockEdges_eq_run (n : Nat) (s : State) : clockEdges n s = Host.Core.run core n s := by
  induction n generalizing s with
  | zero => rfl
  | succ n ih =>
    obtain ⟨t, ht⟩ := everyStepAnswersNext s
    rw [clockEdges_succ ht, run_succ_of_step ht, ih]

section InFlight

variable {s : State} (hrst : s.ports.rst = false) (hbusy : statusBusy s.status = true)

include hrst hbusy

/-- Of j + m edges a command in flight has to wait for, j leave m of them and change nothing else. -/
theorem run_waiting {j m : Nat} (hwait : s.wait = j + m) : Host.Core.run core j s = .next (waitEdge s m) := by
  induction j generalizing s with
  | zero =>
    rw [Nat.zero_add] at hwait
    subst hwait
    rfl
  | succ j ih =>
    rw [run_succ_of_step (step_waiting hrst hbusy (hwait.trans (Nat.succ_add j m)))]
    exact ih (s := waitEdge s (j + m)) hrst hbusy rfl

/-- The edge after the last waiting edge is the completion edge. -/
theorem run_to_completion {t : State} (hedge : completionEdge (waitEdge s 0) = .next t) :
    Host.Core.run core (s.wait + 1) s = .next t := by
  have hat : AtCompletion (waitEdge s 0) := ⟨hrst, hbusy, rfl⟩
  have hlast := (step_atCompletion hat).trans hedge
  rw [run_add (run_waiting hrst hbusy (Nat.add_zero _).symm), run_succ_of_step hlast, run_zero]

end InFlight

/-- Settles O14: the acceptance edge loads the wait counter with LAT - 1, which `run_waiting` counts down and
`run_to_completion` ends. -/
theorem completionComesAfterLatEdges : Obligations.CompletionComesAfterLatEdges := by
  intro s hrst hvalid hbusy
  have hbusy' : statusBusy (accept s).status = true := by simp
  have hrun := run_succ_of_step (step_accept hrst hbusy hvalid)
  constructor
  · intro j hj
    obtain ⟨m, hm⟩ := Nat.exists_eq_add_of_le hj
    exact ⟨waitEdge (accept s) m, (hrun j).trans (run_waiting (s := accept s) hrst hbusy' hm), by simp⟩
  · obtain ⟨c, hc⟩ := completionEdge_eq_complete (waitEdge (accept s) 0)
    have hend := run_to_completion (s := accept s) hrst hbusy' hc
    exact ⟨complete (waitEdge (accept s) 0) c, (hrun _).trans hend, by simp⟩

/-! The host's issue protocol (R174). -/

/-- A completion reads FAULT and FCAUSE alone from STATUS, and acceptance keeps both (R37, R138). -/
theorem statusAfter_statusAccepted (w : BitVec 32) (c : Completion) :
    statusAfter (statusAccepted w) c = statusAfter w c := by
  cases c <;> simp [statusAfter, faultAfter, fcauseAfter]

/-- What a completion shows on the outputs depends on the unit by the STATUS it writes alone. -/
theorem outputs_complete_congr {s t : State} {c : Completion} (h : statusAfter s.status c = statusAfter t.status c) :
    outputs (complete s c) = outputs (complete t c) := by
  simp [outputs, cmdReady, h]

/-- Waiting with a legal command in flight and FAULT = 0 ends with the completion of that command. -/
theorem waitIdle_of_decode_ok {s : State} {i : Instr} (hbusy : statusBusy s.status = true)
    (hfault : statusFault s.status = false) (hd : decode s.latch.cmd = .ok i) :
    waitIdle s = .ok (complete (offerNothing s) (commandResult s.encLimit i s.latch)) := by
  have hat : AtCompletion (waitEdge (offerNothing s) 0) := ⟨rfl, hbusy, rfl⟩
  have hedge : completionEdge (waitEdge (offerNothing s) 0) =
      .next (complete (offerNothing s) (commandResult s.encLimit i s.latch)) :=
    (step_atCompletion hat).symm.trans ((step_of_decode_ok hat hfault hd).trans (exec_eq i _))
  have hrun : clockEdges (s.wait + 1) (offerNothing s) = .next _ :=
    (clockEdges_eq_run _ _).trans (run_to_completion (s := offerNothing s) rfl hbusy hedge)
  rw [waitIdle, edgesToIdle, if_pos hbusy, hrun, edgesResult]

/-- Issuing to an idle unit is the acceptance edge, then the wait (R174). -/
theorem issueCommand_of_idle {s : State} {c : Command} (hbusy : statusBusy s.status = false) :
    issueCommand s c = waitIdle (accept (offer s c)) := by
  have haccept : clockEdge (offer s c) = .next (accept (offer s c)) := step_accept rfl hbusy rfl
  rw [issueCommand, haccept, edgesResult]

/-- Settles O17: the offered command is accepted, and `waitIdle_of_decode_ok` completes it. -/
theorem issueProtocolRunsCommand : Obligations.IssueProtocolRunsCommand := by
  intro s c i hbusy hfault hd
  have hfault' : statusFault (accept (offer s c)).status = false := (statusFault_statusAccepted s.status).trans hfault
  have hissue : issueCommand s c = .ok (complete (offerNothing (accept (offer s c))) (commandResult s.encLimit i c)) :=
    (issueCommand_of_idle hbusy).trans (waitIdle_of_decode_ok (statusBusy_statusAccepted s.status) hfault' hd)
  exact ⟨_, _, exec_eq i _, hissue, outputs_complete_congr (statusAfter_statusAccepted s.status _),
    cmdReady_eq_true.2 (by simp)⟩

end Sys2Proof.Proofs
end
